-- ==== Sys2Proof/Word.lean ====
section
/-! DEFINITION. The widths of the CORE: bytes of a message, 32-bit words of the ports and of SHA-256, 64-bit Fletcher4
sums (spec/00_scope.md, last paragraph of "Implementation parameters"; R7). -/

namespace Sys2Proof

/-- A byte of a message or payload (R9). -/
abbrev Byte := BitVec 8

/-- A 32-bit value (R7 "word"): a port word, a Fletcher4 input word, a SHA-256 word. -/
abbrev Word := BitVec 32

/-- A 64-bit value (R7 "doubleword"): a Fletcher4 sum or a COUNT. -/
abbrev DWord := BitVec 64

end Sys2Proof
end

