-- ==== Sys2Proof/Config.lean ====
section
/-! DEFINITION. What an implementation fixes: the algorithms, the byte orders, the kernel ids, the capabilities, and
the parameters of spec/00_scope.md R6 as one record of plain data. The default VALUES of the parameters stand in
Machine/Defaults.lean. NUM_CONTEXTS is not a field here: it is the length of the context array in State (log 1).
No value of this spec is an undefined result of a command that goes on, so there is no opaque free value here. -/

namespace Sys2Proof

/-- R33: the algorithm of a context. -/
inductive Alg where
  | fletcher4
  | sha256
  deriving DecidableEq, Repr

/-- R34: the Fletcher4 word byte order. -/
inductive ByteOrder where
  | little
  | big
  deriving DecidableEq, Repr

/-- R302: the seven kernel ids, in the spec's order 1 to 7. -/
inductive KernelId where
  | scalar
  | simd128x2
  | simd128x4
  | simd256x4
  | simd256x8
  | simd512x8
  | shaNative
  deriving DecidableEq, Repr

/-- R300: the seven host capabilities, in the order of the bits of `caps_in`. -/
inductive Capability where
  | sse2
  | ssse3
  | avx2
  | avx512f
  | avx512bw
  | bmi
  | shaNi
  deriving DecidableEq, Repr

/-- R6 "lane count K | 1, 2, 4 or 8". -/
inductive Lanes where
  | one
  | two
  | four
  | eight
  deriving DecidableEq, Repr

/-- One row of KERNEL_TABLE (R303): the lane count where the kernel serves Fletcher4 (none: it does not serve it),
whether it serves SHA-256, and the capability it requires. -/
structure KernelRow where
  lanes     : Option Lanes
  servesSha : Bool
  requires  : Option Capability
  deriving DecidableEq, Repr

/-- KERNEL_TABLE (R6, R303, R306): the rows of the six optional kernels and the automatic-selection order of each
algorithm, best first. The scalar kernel's row is no parameter: it is mandatory, K = 1, serves both algorithms and
requires nothing (R5, R303). -/
structure KernelTable where
  simd128x2 : KernelRow
  simd128x4 : KernelRow
  simd256x4 : KernelRow
  simd256x8 : KernelRow
  simd512x8 : KernelRow
  shaNative : KernelRow
  orderF4   : List KernelId
  orderSha  : List KernelId
  deriving DecidableEq, Repr

/-- The parameters of one CORE that no command and no reset changes (R6, R54, R462, R468). -/
structure Config where
  validatedMask : BitVec 7
  kernelTable   : KernelTable
  respDepth     : Nat
  deriving DecidableEq, Repr

end Sys2Proof
end

