-- ==== Sys2Proof/Syntax.lean ====
section
/-! DEFINITION. The commands of the CORE: one constructor per row of spec/opcode_table.json (spec/30_encoding.md). -/

namespace Sys2Proof

/-- R117: the implementation request of INIT. `unknown low` is the code 8 + low, one of 8 to 15. -/
inductive ImplReq where
  | auto
  | named (k : KernelId)
  | unknown (low : BitVec 3)
  deriving DecidableEq, Repr

/-- A command with its operands (R120). The three INIT rows of the table are the three legal pairs of ALG and BO
(R113, R119 (c)). UPDATE carries its payload words whole, the pad bits among them (R114). -/
inductive Instr where
  | initF4Le   (ctx : BitVec 4) (req : ImplReq)
  | initF4Be   (ctx : BitVec 4) (req : ImplReq)
  | initSha256 (ctx : BitVec 4) (req : ImplReq)
  | update     (ctx : BitVec 4) (nbytes : BitVec 20) (payload : List Word)
  | finalize   (ctx : BitVec 4)
  | status     (ctx : BitVec 4)
  | caps
  | illegal    (op : Byte)
  deriving DecidableEq, Repr

end Sys2Proof
end

