-- ==== Sys2Proof/WellFormed.lean ====
section
/-! DEFINITION. Which terms of `Instr` a command port can carry. -/

namespace Sys2Proof

/-- R110, R114: the number of payload words of an UPDATE of `n` bytes, ⌈n / 4⌉. -/
def payloadLen (n : BitVec 20) : Nat := (n.toNat + 3) / 4

/-- An UPDATE carries exactly ⌈NBYTES/4⌉ payload words (R114), and no illegal header has OP = 0x02 (R119: "UPDATE has
no illegal form"). Every other term is well formed. -/
def Instr.wf : Instr → Bool
  | .update _ n payload => payload.length == payloadLen n
  | .illegal op => op != 2#8
  | .initF4Le _ _ => true
  | .initF4Be _ _ => true
  | .initSha256 _ _ => true
  | .finalize _ => true
  | .status _ => true
  | .caps => true

end Sys2Proof
end

