-- ==== Sys2Proof/Decode.lean ====
section
/-! DEFINITION. The command encoding of spec/30_encoding.md: the decoder, total on any list of words, and after it the
encoder. A header word alone always decodes (R120); a list of words is rejected, by name, only when it does not hold
a whole command. -/

namespace Sys2Proof

/-! ### Fields of a header word (R111 to R115, R125) -/

/-- OP, bits [7:0]. -/
def hdrOp (w : Word) : Byte := w.extractLsb' 0 8

/-- CTX, bits [11:8]. -/
def hdrCtx (w : Word) : BitVec 4 := w.extractLsb' 8 4

/-- ALG, bit [12]. -/
def hdrAlg (w : Word) : BitVec 1 := w.extractLsb' 12 1

/-- BO, bit [13]. -/
def hdrBo (w : Word) : BitVec 1 := w.extractLsb' 13 1

/-- IMPL, bits [17:14]. -/
def hdrImpl (w : Word) : BitVec 4 := w.extractLsb' 14 4

/-- The reserved bits [31:18] of format I. -/
def hdrReservedI (w : Word) : BitVec 14 := w.extractLsb' 18 14

/-- NBYTES, bits [31:12] of format U; the reserved OPERAND of formats N and C. -/
def hdrOperand (w : Word) : BitVec 20 := w.extractLsb' 12 20

/-! ### Opcodes (R118) -/

/-- R118: OP of INIT. -/
abbrev opInit : Byte := 0x01#8

/-- R118: OP of UPDATE. -/
abbrev opUpdate : Byte := 0x02#8

/-- R118: OP of FINALIZE. -/
abbrev opFinalize : Byte := 0x03#8

/-- R118: OP of STATUS. -/
abbrev opStatus : Byte := 0x04#8

/-- R118: OP of CAPS. -/
abbrev opCaps : Byte := 0x05#8

/-! ### Codes of the field values (R116 to R118, R302) -/

/-- R302: the number of a kernel id. -/
def KernelId.code : KernelId → BitVec 4
  | .scalar => 1#4
  | .simd128x2 => 2#4
  | .simd128x4 => 3#4
  | .simd256x4 => 4#4
  | .simd256x8 => 5#4
  | .simd512x8 => 6#4
  | .shaNative => 7#4

/-- R117: the request an IMPL code stands for. -/
def ImplReq.ofCode (c : BitVec 4) : ImplReq :=
  match c.toNat with
  | 0 => .auto
  | 1 => .named .scalar
  | 2 => .named .simd128x2
  | 3 => .named .simd128x4
  | 4 => .named .simd256x4
  | 5 => .named .simd256x8
  | 6 => .named .simd512x8
  | 7 => .named .shaNative
  | n => .unknown (BitVec.ofNat 3 n)

/-- R117: the IMPL code of a request. -/
def ImplReq.code : ImplReq → BitVec 4
  | .auto => 0#4
  | .named k => k.code
  | .unknown low => 1#1 ++ low

/-! ### Decoding -/

/-- R110: the number of payload words the header alone announces. -/
def payloadWords (hdr : Word) : Nat :=
  if hdrOp hdr = opUpdate then payloadLen (hdrOperand hdr) else 0

/-- R113, R119 (b), (c): an INIT header. -/
def commandInit (hdr : Word) : Instr :=
  if hdrReservedI hdr = 0 then
    match (hdrAlg hdr).toNat, (hdrBo hdr).toNat with
    | 0, 0 => .initF4Le (hdrCtx hdr) (ImplReq.ofCode (hdrImpl hdr))
    | 0, _ => .initF4Be (hdrCtx hdr) (ImplReq.ofCode (hdrImpl hdr))
    | _, 0 => .initSha256 (hdrCtx hdr) (ImplReq.ofCode (hdrImpl hdr))
    | _, _ => .illegal (hdrOp hdr)
  else .illegal (hdrOp hdr)

/-- R118 to R120: the command a header and its payload words make. The payload is UPDATE's alone. -/
def command (hdr : Word) (payload : List Word) : Instr :=
  match (hdrOp hdr).toNat with
  | 1 => commandInit hdr
  | 2 => .update (hdrCtx hdr) (hdrOperand hdr) payload
  | 3 => if hdrOperand hdr = 0 then .finalize (hdrCtx hdr) else .illegal (hdrOp hdr)
  | 4 => if hdrOperand hdr = 0 then .status (hdrCtx hdr) else .illegal (hdrOp hdr)
  | 5 => if hdrOperand hdr = 0 ∧ hdrCtx hdr = 0 then .caps else .illegal (hdrOp hdr)
  | _ => .illegal (hdrOp hdr)

/-- Why a list of words is not a whole command. -/
inductive DecodeError where
  /-- There is no header word. -/
  | noHeader
  /-- The list ends before the payload words the header announces (R110). -/
  | payloadIncomplete
  deriving DecidableEq, Repr

/-- R110: reads one command from a command boundary of a word stream; answers it with the words after it. -/
def decode : List Word → Except DecodeError (Instr × List Word)
  | [] => .error .noHeader
  | hdr :: rest =>
    if rest.length < payloadWords hdr then .error .payloadIncomplete
    else .ok (command hdr (rest.take (payloadWords hdr)), rest.drop (payloadWords hdr))

/-! ### Encoding -/

/-- Format I (R113): reserved 0, IMPL, BO, ALG, CTX, OP. -/
def encodeInit (alg bo : BitVec 1) (ctx : BitVec 4) (req : ImplReq) : Word :=
  0#14 ++ req.code ++ bo ++ alg ++ ctx ++ opInit

/-- Formats N, U and C (R112, R114, R115): OPERAND, CTX, OP. -/
def encodePlain (operand : BitVec 20) (ctx : BitVec 4) (op : Byte) : Word :=
  operand ++ ctx ++ op

/-- One illegal header with the given OP. For the opcodes 1 and 3 to 5, which have legal forms, the word with
OPERAND bit 31 set (R119 (b), (d), (e)); for the others OPERAND and CTX 0 (R119 (a)).
DESIGN CHOICE (log 18): which of the illegal words with that OP the encoder writes. -/
def encodeIllegal (op : Byte) : Word :=
  if op = opInit ∨ op = opFinalize ∨ op = opStatus ∨ op = opCaps then encodePlain 0x80000#20 0#4 op
  else encodePlain 0#20 0#4 op

/-- The header word of a command. -/
def encodeHeader : Instr → Word
  | .initF4Le ctx req => encodeInit 0#1 0#1 ctx req
  | .initF4Be ctx req => encodeInit 0#1 1#1 ctx req
  | .initSha256 ctx req => encodeInit 1#1 0#1 ctx req
  | .update ctx n _ => encodePlain n ctx opUpdate
  | .finalize ctx => encodePlain 0#20 ctx opFinalize
  | .status ctx => encodePlain 0#20 ctx opStatus
  | .caps => encodePlain 0#20 0#4 opCaps
  | .illegal op => encodeIllegal op

/-- The payload words of a command: UPDATE's alone. -/
def Instr.payload : Instr → List Word
  | .update _ _ payload => payload
  | .initF4Le _ _ => []
  | .initF4Be _ _ => []
  | .initSha256 _ _ => []
  | .finalize _ => []
  | .status _ => []
  | .caps => []
  | .illegal _ => []

/-- The words of a command as the command port carries them, header first (R110). -/
def encode (i : Instr) : List Word := encodeHeader i :: i.payload

/-- The OP field of a command's header (R118), which its response copies (R121). -/
def Instr.op : Instr → Byte
  | .initF4Le _ _ => opInit
  | .initF4Be _ _ => opInit
  | .initSha256 _ _ => opInit
  | .update _ _ _ => opUpdate
  | .finalize _ => opFinalize
  | .status _ => opStatus
  | .caps => opCaps
  | .illegal op => op

/-! ### Words numbered as spec/opcode_table.json numbers them -/

/-- Word `k` of the number `w`: bits [32k + 31 : 32k]. -/
def tableWord (w k : Nat) : Word := BitVec.ofNat 32 (w >>> (32 * k))

/-- The header of the instruction whose `nbits` table bits are `w`; every bit above them is 0. -/
def tableHeader (nbits w : Nat) : Word := tableWord (w % 2 ^ nbits) 0

/-- Its payload words, as many as the header announces. -/
def tablePayload (nbits w : Nat) : List Word :=
  (List.range (payloadWords (tableHeader nbits w))).map fun k => tableWord (w % 2 ^ nbits) (k + 1)

/-- The instruction the decoder reads from those words. -/
def decodeTableWord (nbits w : Nat) : Option Instr :=
  match decode (tableHeader nbits w :: tablePayload nbits w) with
  | .ok (i, _) => some i
  | .error _ => none

end Sys2Proof
end

