-- ==== Sys2Proof/Machine/Defaults.lean ====
section
/-! DEFINITION. The default values of the parameters of spec/00_scope.md R6, and the fixed tables of
spec/41_sha256.md R253, R254. -/

namespace Sys2Proof.Machine

/-- R6: NUM_CONTEXTS, default 4. -/
def defaultNumContexts : Nat := 4

/-- R6: VALIDATED_MASK, default 0x7F (all kernels built in). -/
def defaultValidatedMask : BitVec 7 := 0x7F#7

/-- R303, R306: the default KERNEL_TABLE. -/
def defaultKernelTable : KernelTable where
  simd128x2 := { lanes := some .two,   servesSha := false, requires := some .sse2 }
  simd128x4 := { lanes := some .four,  servesSha := true,  requires := some .ssse3 }
  simd256x4 := { lanes := some .four,  servesSha := true,  requires := some .avx2 }
  simd256x8 := { lanes := some .eight, servesSha := false, requires := some .avx2 }
  simd512x8 := { lanes := some .eight, servesSha := false, requires := some .avx512f }
  shaNative := { lanes := none,        servesSha := true,  requires := some .shaNi }
  orderF4   := [.simd512x8, .simd256x8, .simd256x4, .simd128x4, .simd128x2, .scalar]
  orderSha  := [.shaNative, .simd256x4, .simd128x4, .scalar]

/-- R468, D34: RESP_DEPTH is OPEN (at least 9 words). DESIGN CHOICE (log 7): 4096. -/
def defaultRespDepth : Nat := 4096

/-- The parameters at their defaults. -/
def defaultConfig : Config where
  validatedMask := defaultValidatedMask
  kernelTable   := defaultKernelTable
  respDepth     := defaultRespDepth

/-- R253: the SHA-256 round constants K_0 to K_63, eight to a row. -/
def roundConstants : List Word :=
  [0x428a2f98#32, 0x71374491#32, 0xb5c0fbcf#32, 0xe9b5dba5#32, 0x3956c25b#32, 0x59f111f1#32, 0x923f82a4#32, 0xab1c5ed5#32]
  ++ [0xd807aa98#32, 0x12835b01#32, 0x243185be#32, 0x550c7dc3#32, 0x72be5d74#32, 0x80deb1fe#32, 0x9bdc06a7#32, 0xc19bf174#32]
  ++ [0xe49b69c1#32, 0xefbe4786#32, 0x0fc19dc6#32, 0x240ca1cc#32, 0x2de92c6f#32, 0x4a7484aa#32, 0x5cb0a9dc#32, 0x76f988da#32]
  ++ [0x983e5152#32, 0xa831c66d#32, 0xb00327c8#32, 0xbf597fc7#32, 0xc6e00bf3#32, 0xd5a79147#32, 0x06ca6351#32, 0x14292967#32]
  ++ [0x27b70a85#32, 0x2e1b2138#32, 0x4d2c6dfc#32, 0x53380d13#32, 0x650a7354#32, 0x766a0abb#32, 0x81c2c92e#32, 0x92722c85#32]
  ++ [0xa2bfe8a1#32, 0xa81a664b#32, 0xc24b8b70#32, 0xc76c51a3#32, 0xd192e819#32, 0xd6990624#32, 0xf40e3585#32, 0x106aa070#32]
  ++ [0x19a4c116#32, 0x1e376c08#32, 0x2748774c#32, 0x34b0bcb5#32, 0x391c0cb3#32, 0x4ed8aa4a#32, 0x5b9cca4f#32, 0x682e6ff3#32]
  ++ [0x748f82ee#32, 0x78a5636f#32, 0x84c87814#32, 0x8cc70208#32, 0x90befffa#32, 0xa4506ceb#32, 0xbef9a3f7#32, 0xc67178f2#32]

end Sys2Proof.Machine
end

