-- ==== Sys2Proof/Machine/State.lean ====
section
/-! DEFINITION. The state of the CORE (spec/10_state.md R30 to R46, R53), its ports, its parameters, and the outside
world's moves, all as plain data. INVENTORY.md's '## State' lists every field. -/

namespace Sys2Proof.Machine

/-- R32: the lifecycle state of a context. -/
inductive Life where
  | unbound
  | fresh
  | absorbing
  | finalised
  deriving DecidableEq, Repr

/-- R37, R200: a Fletcher4 quadruple (A, B, C, D). -/
structure Quad where
  a : DWord
  b : DWord
  c : DWord
  d : DWord
  deriving DecidableEq, Repr

/-- Q0 of spec/40_fletcher4.md. -/
def Quad.zero : Quad := { a := 0, b := 0, c := 0, d := 0 }

/-- R38: eight SHA-256 words, a chaining value H[0..7] or the working words a..h (R257). -/
structure Octet where
  h0 : Word
  h1 : Word
  h2 : Word
  h3 : Word
  h4 : Word
  h5 : Word
  h6 : Word
  h7 : Word
  deriving DecidableEq, Repr

/-- Eight zero words: H[0..7] after reset (R53). -/
def Octet.zero : Octet := { h0 := 0, h1 := 0, h2 := 0, h3 := 0, h4 := 0, h5 := 0, h6 := 0, h7 := 0 }

/-- One context (R30, R32 to R40). `impl` is IMPL: none is the value 0 (R35 "Reads 0 while Unbound"; log 25). BUFLEN is
the length of `buf` (R39). -/
structure Context where
  life  : Life
  alg   : Alg
  bo    : ByteOrder
  impl  : Option KernelId
  warn  : Bool
  f4    : Quad
  h     : Octet
  buf   : List Byte
  count : DWord
  deriving DecidableEq, Repr

/-- R53: a context after reset. -/
def Context.reset : Context where
  life := .unbound
  alg := .fletcher4
  bo := .little
  impl := none
  warn := false
  f4 := Quad.zero
  h := Octet.zero
  buf := []
  count := 0

/-- R46: the command-framing state. `payload hdr due taken`: the UPDATE header `hdr` has been taken, `due` more payload
words are due, and `taken` holds the payload words taken so far, NEWEST FIRST. -/
inductive Framing where
  | idle
  | payload (hdr : Word) (due : Nat) (taken : List Word)
  deriving DecidableEq, Repr

/-- One move of the outside world, or leave for the CORE to take a word (log 3): the host's side of R81 (write), R82
(read), R300 (`caps_in` changes) and R450 (reset). -/
inductive Turn where
  | core
  | write (w : Word)
  | read
  | setCaps (v : BitVec 7)
  | reset
  deriving DecidableEq, Repr

/-- The whole state. The first four fields are the record of R30; `ctxs` has NUM_CONTEXTS entries (R31). `respPort` is
the response port (R53, R82), oldest word first. `cmdPort` holds the words written and not yet taken, oldest first
(R81). `capsIn` is the level of the input `caps_in` (R300). `cfg` is R6's parameters. `turns` and `hostGot` are the
model's own: what happens outside next, and the response words the host has read, oldest first. -/
structure State where
  capsValid : Bool
  capsCache : BitVec 7
  framing   : Framing
  ctxs      : List Context
  respPort  : List Word
  cmdPort   : List Word
  capsIn    : BitVec 7
  cfg       : Config
  turns     : List Turn
  hostGot   : List Word
  deriving DecidableEq, Repr

/-- The CORE has no fault, stuck or hang state: "every step is total" (R400, R11). No meaning answers a fault, so the
type has no constructor: safe, since nothing is left out by it (log 24). -/
inductive Fault where
  deriving DecidableEq, Repr

/-- R11: "The model needs no refusal for any word the port can carry". -/
inductive Refusal where
  /-- An instruction with no meaning yet: raised by exec's arm of that instruction only; no arm raises it now. Safe:
  it stops where the hardware goes on. -/
  | notModelled (mnemonic : String)
  deriving DecidableEq, Repr

/-- The three outcomes of a step of this machine; every one is `next`. -/
abbrev Result := Host.Outcome State Fault Refusal

/-- R53, R450: the machine right after reset, with the default parameters (R6), nothing written to the command port
and no move of the outside world pending (log 2, log 3, log 11, log 14). -/
def State.reset : State where
  capsValid := false
  capsCache := 0
  framing := .idle
  ctxs := List.replicate defaultNumContexts Context.reset
  respPort := []
  cmdPort := []
  capsIn := 0
  cfg := defaultConfig
  turns := []
  hostGot := []

end Sys2Proof.Machine
end

