-- ==== Sys2Proof/Machine/Operands.lean ====
section
/-! DEFINITION. Operand forms: bytes out of payload words, words out of message bytes, words out of digests
(spec/20_memory.md R83 to R89), and cutting a run into equal pieces. -/

namespace Sys2Proof.Machine

/-- R83: the four bytes of a payload word in stream order, bits [7:0] first. -/
def wordBytes (w : Word) : List Byte :=
  [w.extractLsb' 0 8, w.extractLsb' 8 8, w.extractLsb' 16 8, w.extractLsb' 24 8]

/-- R83, R84: the `n` bytes a payload carries. What the last word holds above them is dropped. -/
def payloadBytes (n : Nat) (payload : List Word) : List Byte :=
  (payload.flatMap wordBytes).take n

/-- R86: four message bytes as a word, the first byte lowest. -/
def decodeLE (b0 b1 b2 b3 : Byte) : Word := b3 ++ b2 ++ b1 ++ b0

/-- R86: four message bytes as a word, the first byte highest. -/
def decodeBE (b0 b1 b2 b3 : Byte) : Word := b0 ++ b1 ++ b2 ++ b3

/-- R86, R201: `decode` of a byte order. -/
def decodeWord (bo : ByteOrder) (b0 b1 b2 b3 : Byte) : Word :=
  match bo with
  | .little => decodeLE b0 b1 b2 b3
  | .big => decodeBE b0 b1 b2 b3

/-- R201, R255: the words of a byte sequence, four bytes each. Fewer than four bytes at the end make no word. -/
def wordsOf (bo : ByteOrder) : List Byte → List Word
  | b0 :: b1 :: b2 :: b3 :: rest => decodeWord bo b0 b1 b2 b3 :: wordsOf bo rest
  | _ => []

/-- R262: BE64(x), the 8 bytes of x, most significant first. -/
def be64 (x : DWord) : List Byte :=
  [x.extractLsb' 56 8, x.extractLsb' 48 8, x.extractLsb' 40 8, x.extractLsb' 32 8,
   x.extractLsb' 24 8, x.extractLsb' 16 8, x.extractLsb' 8 8, x.extractLsb' 0 8]

/-- The first `q` consecutive pieces of `size` elements each: the strides of a run, the blocks of a message. -/
def pieces {α : Type} (size : Nat) : Nat → List α → List (List α)
  | 0, _ => []
  | q + 1, xs => xs.take size :: pieces size q (xs.drop size)

/-- Bits [31:0] of a doubleword. -/
def lowWord (x : DWord) : Word := x.extractLsb' 0 32

/-- Bits [63:32] of a doubleword. -/
def highWord (x : DWord) : Word := x.extractLsb' 32 32

/-- R89: a quadruple as the eight payload words of FINALIZE. -/
def Quad.words (q : Quad) : List Word :=
  [lowWord q.a, highWord q.a, lowWord q.b, highWord q.b, lowWord q.c, highWord q.c, lowWord q.d, highWord q.d]

/-- R88: H[0] to H[7] as the eight payload words of FINALIZE. -/
def Octet.words (h : Octet) : List Word := [h.h0, h.h1, h.h2, h.h3, h.h4, h.h5, h.h6, h.h7]

end Sys2Proof.Machine
end

