-- ==== Sys2Proof/Machine/Select.lean ====
section
/-! DEFINITION. The dispatch multiplexer (spec/42_dispatch.md): the kernel table, availability, selection. -/

namespace Sys2Proof.Machine

/-- R300: the bit of `caps_in` and `caps_cache` that reports a capability. -/
def capBit : Capability → Nat
  | .sse2 => 0
  | .ssse3 => 1
  | .avx2 => 2
  | .avx512f => 3
  | .avx512bw => 4
  | .bmi => 5
  | .shaNi => 6

/-- R6: the number K of a lane count. -/
def laneCount : Lanes → Nat
  | .one => 1
  | .two => 2
  | .four => 4
  | .eight => 8

/-- R303, row 1, and R5: scalar serves both algorithms with K = 1 and requires nothing. -/
def scalarRow : KernelRow := { lanes := some .one, servesSha := true, requires := none }

/-- R303: the row of a kernel id. -/
def kernelRow (t : KernelTable) : KernelId → KernelRow
  | .scalar => scalarRow
  | .simd128x2 => t.simd128x2
  | .simd128x4 => t.simd128x4
  | .simd256x4 => t.simd256x4
  | .simd256x8 => t.simd256x8
  | .simd512x8 => t.simd512x8
  | .shaNative => t.shaNative

/-- R305: serves(i, alg). -/
def serves (t : KernelTable) (alg : Alg) (k : KernelId) : Bool :=
  match alg with
  | .fletcher4 => (kernelRow t k).lanes.isSome
  | .sha256 => (kernelRow t k).servesSha

/-- R304: kernel id i is built in when bit i − 1 of VALIDATED_MASK is 1; scalar always is. -/
def builtIn (cfg : Config) (k : KernelId) : Bool :=
  match k with
  | .scalar => true
  | k => cfg.validatedMask.getLsbD (k.code.toNat - 1)

/-- R305: the capability a row requires is reported in `caps`. A row that requires nothing asks for none. -/
def capMet (caps : BitVec 7) : Option Capability → Bool
  | none => true
  | some c => caps.getLsbD (capBit c)

/-- R305: avail(alg, i). -/
def avail (cfg : Config) (caps : BitVec 7) (alg : Alg) (k : KernelId) : Bool :=
  serves cfg.kernelTable alg k
    && (k == .scalar || (builtIn cfg k && capMet caps (kernelRow cfg.kernelTable k).requires))

/-- R306: the automatic-selection order of an algorithm. -/
def autoOrder (t : KernelTable) : Alg → List KernelId
  | .fletcher4 => t.orderF4
  | .sha256 => t.orderSha

/-- R306: the first available kernel of the order. "The list always ends in scalar, which is always available": where a
table's list does not say so, scalar is taken all the same (log 9). -/
def selectAuto (cfg : Config) (caps : BitVec 7) (alg : Alg) : KernelId :=
  ((autoOrder cfg.kernelTable alg).find? (avail cfg caps alg)).getD .scalar

/-- R306 to R308, Select of R331: the kernel and the WARN bit. -/
def select (cfg : Config) (caps : BitVec 7) (alg : Alg) : ImplReq → KernelId × Bool
  | .auto => (selectAuto cfg caps alg, false)
  | .named k => if avail cfg caps alg k then (k, false) else (.scalar, true)
  | .unknown _ => (.scalar, true)

/-- K(IMPL) of a context (R303, R41). IMPL of a bound Fletcher4 context always serves Fletcher4; for the others, which
no rule asks about, 1 (log 8). -/
def lanesOf (cfg : Config) (x : Context) : Lanes :=
  match x.impl with
  | none => .one
  | some k => (kernelRow cfg.kernelTable k).lanes.getD .one

/-- R41: the stride S(c) in bytes. -/
def stride (cfg : Config) (x : Context) : Nat :=
  match x.alg with
  | .fletcher4 => 4 * laneCount (lanesOf cfg x)
  | .sha256 => 64

end Sys2Proof.Machine
end

