-- ==== Sys2Proof/Machine/Fletcher4.lean ====
section
/-! DEFINITION. The Fletcher4 accumulator and reduction engine (spec/40_fletcher4.md), with the lanes of the K-lane
kernels computed as the spec describes them. All sums are modulo 2^64 (R217). -/

namespace Sys2Proof.Machine

/-- R202: F4Step. -/
def f4Step (q : Quad) (f : Word) : Quad :=
  let a := q.a + f.setWidth 64
  let b := q.b + a
  let c := q.c + b
  let d := q.d + c
  { a := a, b := b, c := c, d := d }

/-- R203: F4Scalar. -/
def f4Scalar (q : Quad) (w : List Word) : Quad := w.foldl f4Step q

/-- R204: F4Merge; the coefficients are exact integers reduced mod 2^64. -/
def f4Merge (s q : Quad) (len : Nat) : Quad where
  a := s.a + q.a
  b := s.b + BitVec.ofNat 64 len * s.a + q.b
  c := s.c + BitVec.ofNat 64 len * s.b + BitVec.ofNat 64 (len * (len + 1) / 2) * s.a + q.c
  d := s.d + BitVec.ofNat 64 len * s.c + BitVec.ofNat 64 (len * (len + 1) / 2) * s.b
        + BitVec.ofNat 64 (len * (len + 1) * (len + 2) / 6) * s.a + q.d

/-- R205: the words lane `j` (counted from 0) of a `k`-lane kernel takes from a run: word `j` of every stride. -/
def laneWords (k j : Nat) (w : List Word) : List Word :=
  (pieces k (w.length / k) w).map fun p => p.getD j 0

/-- R206: the lane quadruples of a run, lane 1 first. -/
def laneQuads (k : Nat) (w : List Word) : List Quad :=
  (List.range k).map fun j => f4Scalar Quad.zero (laneWords k j w)

/-- The sum of `coefficient · value` over the lanes, modulo 2^64. -/
def dot : List Nat → List DWord → DWord
  | c :: cs, x :: xs => BitVec.ofNat 64 c * x + dot cs xs
  | _, _ => 0

/-- R207: the reduction for K = 2. -/
def reduce2 (l : List Quad) : Quad where
  a := dot [1, 1] (l.map Quad.a)
  b := dot [2, 2] (l.map Quad.b) - dot [0, 1] (l.map Quad.a)
  c := dot [4, 4] (l.map Quad.c) - dot [1, 3] (l.map Quad.b)
  d := dot [8, 8] (l.map Quad.d) - dot [4, 8] (l.map Quad.c) + dot [0, 1] (l.map Quad.b)

/-- R208: the reduction for K = 4. -/
def reduce4 (l : List Quad) : Quad where
  a := dot [1, 1, 1, 1] (l.map Quad.a)
  b := dot [4, 4, 4, 4] (l.map Quad.b) - dot [0, 1, 2, 3] (l.map Quad.a)
  c := dot [16, 16, 16, 16] (l.map Quad.c) - dot [6, 10, 14, 18] (l.map Quad.b) + dot [0, 0, 1, 3] (l.map Quad.a)
  d := dot [64, 64, 64, 64] (l.map Quad.d) - dot [48, 64, 80, 96] (l.map Quad.c)
        + dot [4, 10, 20, 34] (l.map Quad.b) - dot [0, 0, 0, 1] (l.map Quad.a)

/-- R209: the reduction for K = 8. -/
def reduce8 (l : List Quad) : Quad where
  a := dot [1, 1, 1, 1, 1, 1, 1, 1] (l.map Quad.a)
  b := dot [8, 8, 8, 8, 8, 8, 8, 8] (l.map Quad.b) - dot [0, 1, 2, 3, 4, 5, 6, 7] (l.map Quad.a)
  c := dot [64, 64, 64, 64, 64, 64, 64, 64] (l.map Quad.c)
        - dot [28, 36, 44, 52, 60, 68, 76, 84] (l.map Quad.b)
        + dot [0, 0, 1, 3, 6, 10, 15, 21] (l.map Quad.a)
  d := dot [512, 512, 512, 512, 512, 512, 512, 512] (l.map Quad.d)
        - dot [448, 512, 576, 640, 704, 768, 832, 896] (l.map Quad.c)
        + dot [56, 84, 120, 164, 216, 276, 344, 420] (l.map Quad.b)
        - dot [0, 0, 0, 1, 4, 10, 20, 35] (l.map Quad.a)

/-- R210: the reduction for any K, lane number `j0` from 0. The fractions are exact integers. -/
def reduceAny (k : Nat) (l : List Quad) : Quad where
  a := dot ((List.range k).map fun _ => 1) (l.map Quad.a)
  b := dot ((List.range k).map fun _ => k) (l.map Quad.b) - dot (List.range k) (l.map Quad.a)
  c := dot ((List.range k).map fun _ => k ^ 2) (l.map Quad.c)
        - dot ((List.range k).map fun j0 => (k ^ 2 - k + 2 * k * j0) / 2) (l.map Quad.b)
        + dot ((List.range k).map fun j0 => j0 * (j0 - 1) / 2) (l.map Quad.a)
  d := dot ((List.range k).map fun _ => k ^ 3) (l.map Quad.d)
        - dot ((List.range k).map fun j0 => k ^ 3 - k ^ 2 + k ^ 2 * j0) (l.map Quad.c)
        + dot ((List.range k).map fun j0 =>
            (k ^ 3 + 2 * k + 3 * k ^ 2 * j0 + 3 * k * j0 ^ 2 - 3 * k ^ 2 - 6 * k * j0) / 6) (l.map Quad.b)
        - dot ((List.range k).map fun j0 => j0 * (j0 - 1) * (j0 - 2) / 6) (l.map Quad.a)

/-- R211: F4AbsorbK, the K-lane absorb of one run whose length is a positive multiple of K. -/
def f4AbsorbK (k : Lanes) (s : Quad) (w : List Word) : Quad :=
  match k with
  | .one => f4Scalar s w
  | .two => f4Merge s (reduce2 (laneQuads 2 w)) w.length
  | .four => f4Merge s (reduce4 (laneQuads 4 w)) w.length
  | .eight => f4Merge s (reduce8 (laneQuads 8 w)) w.length

/-- R215, R310: the tail at FINALIZE always goes through the scalar step. -/
def f4Finish (s : Quad) (bo : ByteOrder) (buf : List Byte) : Quad := f4Scalar s (wordsOf bo buf)

end Sys2Proof.Machine
end

