-- ==== Sys2Proof/Machine/Flags.lean ====
section
/-! DEFINITION. The status views: the response status word RSP (spec/30_encoding.md R121), the result codes
(spec/60_exceptions.md R401), CTXSTAT and the CAPS words (spec/10_state.md R49, R50). The CORE has no condition flags
(R48). -/

namespace Sys2Proof.Machine

/-- R401: the results of a command. -/
inductive Code where
  | ok
  | invalidLength
  | alreadyFinalised
  | illegalCommand
  | badContext
  | notInitialised
  deriving DecidableEq, Repr

/-- R401: the value of CODE. -/
def codeByte : Code → Byte
  | .ok => 0x00#8
  | .invalidLength => 0x01#8
  | .alreadyFinalised => 0x02#8
  | .illegalCommand => 0x10#8
  | .badContext => 0x11#8
  | .notInitialised => 0x12#8

/-- R121: OPC [23:16], NWORDS [15:12], WARN [8], CODE [7:0], the other bits 0. -/
def rspWord (code : Code) (warn : Bool) (op : Byte) (nwords : Nat) : Word :=
  0#8 ++ op ++ BitVec.ofNat 4 nwords ++ 0#3 ++ BitVec.ofBool warn ++ codeByte code

/-- R32: the value of LIFE. -/
def lifeBits : Life → BitVec 2
  | .unbound => 0#2
  | .fresh => 1#2
  | .absorbing => 2#2
  | .finalised => 3#2

/-- R33: the value of ALG. -/
def algBit : Alg → BitVec 1
  | .fletcher4 => 0#1
  | .sha256 => 1#1

/-- R34: the value of BO. -/
def boBit : ByteOrder → BitVec 1
  | .little => 0#1
  | .big => 1#1

/-- R35: the value of IMPL. -/
def implBits : Option KernelId → BitVec 4
  | none => 0#4
  | some k => k.code

/-- R49, LANES: K(IMPL) when ALG = FLETCHER4 and LIFE ≠ Unbound, else 0. -/
def lanesField (cfg : Config) (x : Context) : BitVec 4 :=
  if x.alg = .fletcher4 ∧ x.life ≠ .unbound then BitVec.ofNat 4 (laneCount (lanesOf cfg x)) else 0#4

/-- R312: NEEDS_FPU is 1 exactly when the context is bound and IMPL ≠ 1. -/
def needsFpu (x : Context) : Bool := x.life != .unbound && x.impl != some .scalar

/-- R49: the status word of a context. -/
def ctxStat (cfg : Config) (x : Context) : Word :=
  0#9 ++ BitVec.ofNat 7 x.buf.length ++ 0#2 ++ BitVec.ofBool x.warn ++ BitVec.ofBool (needsFpu x)
    ++ lanesField cfg x ++ implBits x.impl ++ boBit x.bo ++ algBit x.alg ++ lifeBits x.life

/-- A byte whose bit i, for i = 1..7, says whether kernel id i has the property; bit 0 is 0 (R50). -/
def kernelBits (p : KernelId → Bool) : Byte :=
  BitVec.ofBool (p .shaNative) ++ BitVec.ofBool (p .simd512x8) ++ BitVec.ofBool (p .simd256x8)
    ++ BitVec.ofBool (p .simd256x4) ++ BitVec.ofBool (p .simd128x4) ++ BitVec.ofBool (p .simd128x2)
    ++ BitVec.ofBool (p .scalar) ++ 0#1

/-- R50: CAPSWORD. -/
def capsWord (s : State) : Word := 0#25 ++ s.capsCache

/-- R50: VALIDWORD. -/
def validWord (s : State) : Word := 0#24 ++ kernelBits (builtIn s.cfg)

/-- R50: AVAILWORD. -/
def availWord (s : State) : Word :=
  0#16 ++ kernelBits (avail s.cfg s.capsCache .sha256) ++ kernelBits (avail s.cfg s.capsCache .fletcher4)

end Sys2Proof.Machine
end

