-- ==== Sys2Proof/Machine/Ops.lean ====
section
/-! DEFINITION. The named operations every command is made of: reading and writing a context, sampling the
capabilities, answering, raising an error (spec/43_commands.md R330, spec/60_exceptions.md). -/

namespace Sys2Proof.Machine

/-- R6, R31: NUM_CONTEXTS, the length of the context array (log 1). -/
def State.numContexts (s : State) : Nat := s.ctxs.length

/-- R31: context `c`; none where c ≥ NUM_CONTEXTS. -/
def State.ctx? (s : State) (c : BitVec 4) : Option Context := s.ctxs[c.toNat]?

/-- R10: `ctx[c] <- x`, the whole record. -/
def State.setCtx (s : State) (c : BitVec 4) (x : Context) : State := { s with ctxs := s.ctxs.set c.toNat x }

/-- R301: the first sample after reset fills the cache; later it is left alone. -/
def sampleCaps (s : State) : State :=
  if s.capsValid then s else { s with capsCache := s.capsIn, capsValid := true }

/-- R330 `respond`: the status word of R121 and the payload words leave through the response port (R82). -/
def respond (code : Code) (warn : Bool) (op : Byte) (p : List Word) (s : State) : State :=
  { s with respPort := s.respPort ++ rspWord code warn op p.length :: p }

/-- R10, R330 `raise E`: the error response, which ends the command. It is the whole of the CORE's error mechanism: no
trap is taken (R400, R410). What a rule says an error writes (R409) is already in `s`. -/
def raise (code : Code) (op : Byte) (s : State) : Result := .next (respond code false op [] s)

/-- R406: BAD_CONTEXT where c ≥ NUM_CONTEXTS; otherwise the command goes on with context c. -/
def onContext (op : Byte) (c : BitVec 4) (s : State) (body : Context → Result) : Result :=
  match s.ctx? c with
  | none => raise .badContext op s
  | some x => body x

/-- R407, R402, in the order of R405: NOT_INITIALISED on an Unbound context, ALREADY_FINALISED on a Finalised one;
otherwise the command goes on. -/
def onLive (op : Byte) (x : Context) (s : State) (body : Result) : Result :=
  match x.life with
  | .unbound => raise .notInitialised op s
  | .finalised => raise .alreadyFinalised op s
  | .fresh => body
  | .absorbing => body

end Sys2Proof.Machine
end

