-- ==== Sys2Proof/Machine/Sha256.lean ====
section
/-! DEFINITION. The SHA-256 compression core (spec/41_sha256.md). Words are added modulo 2^32 (R266). -/

namespace Sys2Proof.Machine

/-- R250: Ch. -/
def ch (x y z : Word) : Word := (x &&& y) ^^^ (~~~x &&& z)

/-- R250: Maj. -/
def maj (x y z : Word) : Word := (x &&& y) ^^^ (x &&& z) ^^^ (y &&& z)

/-- R8: ROTR_n. -/
def rotr (n : Nat) (x : Word) : Word := (x >>> n) ||| (x <<< (32 - n))

/-- R8: SHR_n. -/
def shr (n : Nat) (x : Word) : Word := x >>> n

/-- R251: Σ0. -/
def bigSigma0 (x : Word) : Word := rotr 2 x ^^^ rotr 13 x ^^^ rotr 22 x

/-- R251: Σ1. -/
def bigSigma1 (x : Word) : Word := rotr 6 x ^^^ rotr 11 x ^^^ rotr 25 x

/-- R252: σ0. -/
def smallSigma0 (x : Word) : Word := rotr 7 x ^^^ rotr 18 x ^^^ shr 3 x

/-- R252: σ1. -/
def smallSigma1 (x : Word) : Word := rotr 17 x ^^^ rotr 19 x ^^^ shr 10 x

/-- R254: H^(0). -/
def initialHash : Octet where
  h0 := 0x6a09e667
  h1 := 0xbb67ae85
  h2 := 0x3c6ef372
  h3 := 0xa54ff53a
  h4 := 0x510e527f
  h5 := 0x9b05688c
  h6 := 0x1f83d9ab
  h7 := 0x5be0cd19

/-- R256: the schedule word W[t] that follows W[0..t), t at least 16. -/
def scheduleWord (w : List Word) : Word :=
  let t := w.length
  smallSigma1 (w.getD (t - 2) 0) + w.getD (t - 7) 0 + smallSigma0 (w.getD (t - 15) 0) + w.getD (t - 16) 0

/-- R256: `n` more schedule words. -/
def extendSchedule : Nat → List Word → List Word
  | 0, w => w
  | n + 1, w => extendSchedule n (w ++ [scheduleWord w])

/-- R255, R256: W[0..63] of a block. -/
def schedule (block : List Byte) : List Word := extendSchedule 48 (wordsOf .big block)

/-- R258: round t, given K_t and W[t]; (h0, …, h7) are (a, …, h). -/
def shaRound (v : Octet) (kw : Word × Word) : Octet :=
  let t1 := v.h7 + bigSigma1 v.h4 + ch v.h4 v.h5 v.h6 + kw.1 + kw.2
  let t2 := bigSigma0 v.h0 + maj v.h0 v.h1 v.h2
  { h0 := t1 + t2, h1 := v.h0, h2 := v.h1, h3 := v.h2, h4 := v.h3 + t1, h5 := v.h4, h6 := v.h5, h7 := v.h6 }

/-- R259: the state addition, word by word. -/
def octetAdd (x y : Octet) : Octet where
  h0 := x.h0 + y.h0
  h1 := x.h1 + y.h1
  h2 := x.h2 + y.h2
  h3 := x.h3 + y.h3
  h4 := x.h4 + y.h4
  h5 := x.h5 + y.h5
  h6 := x.h6 + y.h6
  h7 := x.h7 + y.h7

/-- R257, R258: the working words after the 64 rounds. -/
def shaRounds (h : Octet) (w : List Word) : Octet := (roundConstants.zip w).foldl shaRound h

/-- R260: ShaCompress, the compression of one 64-byte block. -/
def shaCompress (h : Octet) (block : List Byte) : Octet := octetAdd h (shaRounds h (schedule block))

/-- R262: the number of zero bytes, (55 − r) mod 64, of the padding after `r` buffered bytes. -/
def padZeros (r : Nat) : Nat := ((55 - (r : Int)) % 64).toNat

/-- R262: the padded final byte sequence. -/
def shaPadded (buf : List Byte) (count : DWord) : List Byte :=
  buf ++ 0x80#8 :: List.replicate (padZeros buf.length) 0#8 ++ be64 count

/-- R263: the one or two final blocks. -/
def shaFinish (h : Octet) (buf : List Byte) (count : DWord) : Octet :=
  let p := shaPadded buf count
  let h1 := shaCompress h (p.take 64)
  if p.length = 128 then shaCompress h1 (p.drop 64) else h1

end Sys2Proof.Machine
end

