-- ==== Sys2Proof/Machine/Finalize.lean ====
section
/-! DEFINITION. FINALIZE (spec/43_commands.md R334). -/

namespace Sys2Proof.Machine

/-- R334, R409: the context is consumed; COUNT and the running state stay as they are. -/
def consume (x : Context) : Context := { x with life := .finalised, buf := [] }

/-- R334: Finalize(c). -/
def execFinalize (c : BitVec 4) (s : State) : Result :=
  onContext opFinalize c s fun x => onLive opFinalize x s <|
    match x.alg with
    | .fletcher4 =>
      if x.buf.length % 4 = 0 then
        let q := f4Finish x.f4 x.bo x.buf
        .next (respond .ok false opFinalize q.words (s.setCtx c { consume x with f4 := q }))
      else raise .invalidLength opFinalize (s.setCtx c (consume x))
    | .sha256 =>
      let h := shaFinish x.h x.buf x.count
      .next (respond .ok false opFinalize h.words (s.setCtx c { consume x with h := h }))

end Sys2Proof.Machine
end

