-- ==== Sys2Proof/Machine/Init.lean ====
section
/-! DEFINITION. INIT (spec/43_commands.md R331): one meaning per row of the opcode table, over one shared operation. -/

namespace Sys2Proof.Machine

/-- R331: the record INIT writes, every field of it: both datapath sets are initialised whichever algorithm is
chosen. -/
def initialContext (alg : Alg) (bo : ByteOrder) (k : KernelId) (warn : Bool) : Context where
  life := .fresh
  alg := alg
  bo := bo
  impl := some k
  warn := warn
  f4 := Quad.zero
  h := initialHash
  buf := []
  count := 0

/-- R331, after the context check: sample, select, write the record, answer with CTXSTAT. -/
def bind (alg : Alg) (bo : ByteOrder) (c : BitVec 4) (req : ImplReq) (s : State) : State :=
  let s := sampleCaps s
  let (k, warn) := select s.cfg s.capsCache alg req
  let x := initialContext alg bo k warn
  respond .ok warn opInit [ctxStat s.cfg x] (s.setCtx c x)

/-- R331: Init(c, alg, bo, req). -/
def execInit (alg : Alg) (bo : ByteOrder) (c : BitVec 4) (req : ImplReq) (s : State) : Result :=
  onContext opInit c s fun _ => .next (bind alg bo c req s)

/-- INIT of a little-endian Fletcher4 context. -/
def execInitF4Le (c : BitVec 4) (req : ImplReq) (s : State) : Result := execInit .fletcher4 .little c req s

/-- INIT of a big-endian Fletcher4 context. -/
def execInitF4Be (c : BitVec 4) (req : ImplReq) (s : State) : Result := execInit .fletcher4 .big c req s

/-- INIT of a SHA-256 context, whose BO is 0 (R34). -/
def execInitSha256 (c : BitVec 4) (req : ImplReq) (s : State) : Result := execInit .sha256 .little c req s

end Sys2Proof.Machine
end

