-- ==== Sys2Proof/Machine/Query.lean ====
section
/-! DEFINITION. STATUS (spec/43_commands.md R335), CAPS (R336) and the answer to an illegal header (R337). -/

namespace Sys2Proof.Machine

/-- R335: Status(c). -/
def execStatus (c : BitVec 4) (s : State) : Result :=
  onContext opStatus c s fun x =>
    .next (respond .ok false opStatus [ctxStat s.cfg x, lowWord x.count, highWord x.count] s)

/-- R336: Caps(). -/
def execCaps (s : State) : Result :=
  let s := sampleCaps s
  .next (respond .ok false opCaps [capsWord s, validWord s, availWord s] s)

/-- R337: Illegal(op). -/
def execIllegal (op : Byte) (s : State) : Result := raise .illegalCommand op s

end Sys2Proof.Machine
end

