-- ==== Sys2Proof/Machine/Update.lean ====
section
/-! DEFINITION. UPDATE (spec/43_commands.md R332). -/

namespace Sys2Proof.Machine

/-- R332 Absorb, R310: a run of whole strides goes to the engine that ALG selects. -/
def absorb (cfg : Config) (x : Context) (run : List Byte) : Context :=
  match x.alg with
  | .fletcher4 => { x with f4 := f4AbsorbK (lanesOf cfg x) x.f4 (wordsOf x.bo run) }
  | .sha256 => { x with h := (pieces 64 (run.length / 64) run).foldl shaCompress x.h }

/-- R332, step 1: top up a non-empty buffer and absorb it when it is full. Answers the context and the bytes left. -/
def topUp (cfg : Config) (x : Context) (m : List Byte) : Context × List Byte :=
  if x.buf = [] then (x, m)
  else
    let t := min (stride cfg x - x.buf.length) m.length
    let b := x.buf ++ m.take t
    if b.length = stride cfg x then ({ absorb cfg x b with buf := [] }, m.drop t)
    else ({ x with buf := b }, m.drop t)

/-- R332, step 2: the aligned bulk. Answers the context and the bytes left. -/
def absorbBulk (cfg : Config) (x : Context) (m : List Byte) : Context × List Byte :=
  let q := m.length / stride cfg x
  if 0 < q then (absorb cfg x (m.take (q * stride cfg x)), m.drop (q * stride cfg x)) else (x, m)

/-- R332 with R40, R261: COUNT counts bits for SHA-256 and bytes for Fletcher4, modulo 2^64. -/
def countUp (alg : Alg) (count : DWord) (n : Nat) : DWord :=
  match alg with
  | .fletcher4 => count + BitVec.ofNat 64 n
  | .sha256 => count + BitVec.ofNat 64 (8 * n)

/-- R332: what UPDATE of the bytes `m` makes of a Fresh or Absorbing context. -/
def updateContext (cfg : Config) (x : Context) (m : List Byte) : Context :=
  let (x1, rest1) := topUp cfg x m
  let (x2, rest2) := absorbBulk cfg x1 rest1
  { x2 with buf := x2.buf ++ rest2, count := countUp x.alg x.count m.length, life := .absorbing }

/-- R332: Update(c, n, m), m the n payload bytes (R83). -/
def execUpdate (c : BitVec 4) (n : BitVec 20) (payload : List Word) (s : State) : Result :=
  onContext opUpdate c s fun x => onLive opUpdate x s <|
    .next (respond .ok false opUpdate [] (s.setCtx c (updateContext s.cfg x (payloadBytes n.toNat payload))))

end Sys2Proof.Machine
end

