-- ==== Sys2Proof/Machine/Dispatch.lean ====
section
/-! DEFINITION. The command step's case distinction (spec/43_commands.md R330): one arm per constructor of Instr. -/

namespace Sys2Proof.Machine

def exec (i : Instr) (s : State) : Host.Outcome State Fault Refusal :=
  match i with
  | .initF4Le ctx req => Sys2Proof.Machine.execInitF4Le ctx req s
  | .initF4Be ctx req => Sys2Proof.Machine.execInitF4Be ctx req s
  | .initSha256 ctx req => Sys2Proof.Machine.execInitSha256 ctx req s
  | .update ctx nbytes payload => Sys2Proof.Machine.execUpdate ctx nbytes payload s
  | .finalize ctx => Sys2Proof.Machine.execFinalize ctx s
  | .status ctx => Sys2Proof.Machine.execStatus ctx s
  | .caps => Sys2Proof.Machine.execCaps s
  | .illegal op => Sys2Proof.Machine.execIllegal op s

end Sys2Proof.Machine
end

