-- ==== Sys2Proof/Machine/Framing.lean ====
section
/-! DEFINITION. What happens around a command: the command port and its framing (spec/10_state.md R46,
spec/20_memory.md R81), backpressure (spec/70_reset_and_hazards.md R468), reset (R450, R451) and the other moves of the
outside world. -/

namespace Sys2Proof.Machine

/-- R46, R81, R110: the framing after the word `w` is taken, and the command `w` completes, if it does. A header whose
payload count is 0 executes at once; an UPDATE executes when its last payload word is taken, whatever the words' bits.
(`due` is never 0 in a run; a state that has 0 there counts as one word due: log 21.) -/
def frameWord (f : Framing) (w : Word) : Framing × Option Instr :=
  match f with
  | .idle =>
    if payloadWords w = 0 then (.idle, some (command w [])) else (.payload w (payloadWords w) [], none)
  | .payload hdr due taken =>
    if due ≤ 1 then (.idle, some (command hdr (w :: taken).reverse)) else (.payload hdr (due - 1) (w :: taken), none)

/-- R121, R122, R405: the number of words in the response of `i`: the status word and the payload the command's own
checks and effect give it in `s`. -/
def responseLength (i : Instr) (s : State) : Nat :=
  match exec i s with
  | .next t => t.respPort.length - s.respPort.length
  | .fault _ => 0
  | .refused _ => 0

/-- R468: there is room for the next response in the port of RESP_DEPTH words. The next response is that of the command
the word belongs to (log 6): `done`, which the word completes, or else an UPDATE whose payload is not complete, which
answers one word whatever its outcome (R122). -/
def hasRoom (done : Option Instr) (s : State) : Bool :=
  match done with
  | some i => s.respPort.length + responseLength i s ≤ s.cfg.respDepth
  | none => s.respPort.length + 1 ≤ s.cfg.respDepth

/-- The CORE's own move: it takes the next command word, if there is one (R81) and there is room for the response of its
command (R468); otherwise it holds its state (R420). Answers the command that the word completes, if it does. -/
def takeWord (s : State) : State × Option Instr :=
  match s.cmdPort with
  | [] => (s, none)
  | w :: rest =>
    if hasRoom (frameWord s.framing w).2 s then
      ({ s with framing := (frameWord s.framing w).1, cmdPort := rest }, (frameWord s.framing w).2)
    else (s, none)

/-- R450, R451: reset. Every piece of architectural state takes its value of R53; the parameters (R462), the input
levels, the words not yet taken and the host's own record stay (log 5). -/
def resetCore (s : State) : State :=
  { s with
    capsValid := false
    capsCache := 0
    framing := .idle
    ctxs := List.replicate s.numContexts Context.reset
    respPort := [] }

/-- R82: the host reads the oldest response word; a read of an empty port gets nothing (log 14). -/
def hostRead (s : State) : State :=
  match s.respPort with
  | [] => s
  | w :: rest => { s with respPort := rest, hostGot := s.hostGot ++ [w] }

/-- R81: the host writes a word; none is lost. -/
def hostWrite (w : Word) (s : State) : State := { s with cmdPort := s.cmdPort ++ [w] }

/-- R300: the level of `caps_in` changes; the cache does not (R463). -/
def setCaps (v : BitVec 7) (s : State) : State := { s with capsIn := v }

/-- The next turn of the machine and its surroundings. With no turn listed the CORE moves (log 3). Answers the command
to execute, if the move completes one. -/
def nextCommand (s : State) : State × Option Instr :=
  match s.turns with
  | [] => takeWord s
  | .core :: ts => takeWord { s with turns := ts }
  | .write w :: ts => (hostWrite w { s with turns := ts }, none)
  | .read :: ts => (hostRead { s with turns := ts }, none)
  | .setCaps v :: ts => (setCaps v { s with turns := ts }, none)
  | .reset :: ts => (resetCore { s with turns := ts }, none)

/-- The state in which the CORE takes `hdr` and its `payload` words as its next command, in ONE step: all but the last
word count as taken already, the last one stands first at the command port, the CORE has the next turn, and a response
port with no room for the command's response is emptied (log 12). -/
def placeCommand (s : State) (hdr : Word) (payload : List Word) : State :=
  let s := { s with
    turns := .core :: s.turns
    respPort := if hasRoom (some (command hdr payload)) s then s.respPort else [] }
  match payload.reverse with
  | [] => { s with framing := .idle, cmdPort := hdr :: s.cmdPort }
  | last :: taken => { s with framing := .payload hdr 1 taken, cmdPort := last :: s.cmdPort }

end Sys2Proof.Machine
end

