-- ==== Sys2Proof/Machine/Step.lean ====
section
/-! DEFINITION. One step: one move of the outside world, or one word taken by the CORE, with the whole command when the
word completes it (spec/20_memory.md R81, R91; spec/43_commands.md R330). -/

namespace Sys2Proof.Machine

/-- The step. A command's effect is atomic, in the step that takes its last word (R91). -/
def step (s : State) : Host.Outcome State Fault Refusal :=
  match nextCommand s with
  | (t, none) => .next t
  | (t, some i) => exec i t

/-- `s` with the command whose bits are `w` where the CORE takes its next word (log 12). -/
def State.withFetchWord (s : State) (nbits w : Nat) : State :=
  placeCommand s (tableHeader nbits w) (tablePayload nbits w)

end Sys2Proof.Machine
end

