-- ==== Sys2Proof/Machine/Assembler.lean ====
section
/-! DEFINITION. The assembler syntax of spec/30_encoding.md R126 as text, and the pseudo-instructions of R127 as the
commands they expand to. -/

namespace Sys2Proof.Machine

/-! ### Pseudo-instructions (R127) -/

/-- R6, R114: MAX_NBYTES. -/
def maxNBytes : Nat := 1048575

/-- R83: bytes packed into payload words, the first byte lowest; the pad bits of the last word are 0. -/
def packBytes : List Byte → List Word
  | b0 :: b1 :: b2 :: b3 :: rest => decodeLE b0 b1 b2 b3 :: packBytes rest
  | [b0, b1, b2] => [decodeLE b0 b1 b2 0]
  | [b0, b1] => [decodeLE b0 b1 0 0]
  | [b0] => [decodeLE b0 0 0 0]
  | [] => []

/-- One UPDATE of at most MAX_NBYTES bytes. -/
def updateOne (c : BitVec 4) (m : List Byte) : Instr := .update c (BitVec.ofNat 20 m.length) (packBytes m)

/-- R127: UPDATEs of MAX_NBYTES bytes each while more bytes remain, at most `k` of them, then one of the rest. -/
def updatePieces (c : BitVec 4) : Nat → List Byte → List Instr
  | 0, m => [updateOne c m]
  | k + 1, m =>
    if m.length ≤ maxNBytes then [updateOne c m]
    else updateOne c (m.take maxNBytes) :: updatePieces c k (m.drop maxNBytes)

/-- R127: UPDATE of any number of bytes. -/
def updateAll (c : BitVec 4) (m : List Byte) : List Instr := updatePieces c (m.length / maxNBytes) m

/-- R127: HASH, with `init` the INIT of context `c` it names. -/
def hashAll (init : Instr) (c : BitVec 4) (m : List Byte) : List Instr := init :: (updateAll c m ++ [.finalize c])

/-! ### Text (R126) -/

/-- A hexadecimal digit. -/
def hexDigit (d : BitVec 4) : String :=
  ["0", "1", "2", "3", "4", "5", "6", "7", "8", "9", "a", "b", "c", "d", "e", "f"].getD d.toNat "0"

/-- A hex byte pair. -/
def hexByte (b : Byte) : String := hexDigit (b.extractLsb' 4 4) ++ hexDigit (b.extractLsb' 0 4)

/-- Eight hex digits. -/
def hexWord (w : Word) : String :=
  hexByte (w.extractLsb' 24 8) ++ hexByte (w.extractLsb' 16 8) ++ hexByte (w.extractLsb' 8 8)
    ++ hexByte (w.extractLsb' 0 8)

/-- `x"<hex byte pairs>"`. -/
def hexBytes (m : List Byte) : String := "x\"" ++ m.foldr (fun b t => hexByte b ++ t) "" ++ "\""

/-- `c<n>`. -/
def ctxText (c : BitVec 4) : String := "c" ++ Nat.repr c.toNat

/-- R117: the name of a kernel id. -/
def kernelText : KernelId → String
  | .scalar => "scalar"
  | .simd128x2 => "simd128-2lane"
  | .simd128x4 => "simd128-4lane"
  | .simd256x4 => "simd256-4lane"
  | .simd256x8 => "simd256-8lane"
  | .simd512x8 => "simd512-8lane"
  | .shaNative => "sha-native"

/-- `[, <impl>]`: absent for auto, a name, or `#<n>` for an unknown code. -/
def implText : ImplReq → String
  | .auto => ""
  | .named k => ", " ++ kernelText k
  | .unknown low => ", #" ++ Nat.repr (8 + low.toNat)

/-- R126: the line of a command; an illegal header is a raw word. DESIGN CHOICE (log 26): which of R126's spellings. -/
def assembly : Instr → String
  | .initF4Le c req => "INIT " ++ ctxText c ++ ", fletcher4, le" ++ implText req
  | .initF4Be c req => "INIT " ++ ctxText c ++ ", fletcher4, be" ++ implText req
  | .initSha256 c req => "INIT " ++ ctxText c ++ ", sha256" ++ implText req
  | .update c n p => "UPDATE " ++ ctxText c ++ ", " ++ hexBytes (payloadBytes n.toNat p)
  | .finalize c => "FINALIZE " ++ ctxText c
  | .status c => "STATUS " ++ ctxText c
  | .caps => "CAPS"
  | .illegal op => ".word 0x" ++ hexWord (encodeHeader (.illegal op))

end Sys2Proof.Machine
end

