-- ==== Sys2Proof/Safety.lean ====
section
/-! DEFINITION. What holds of a machine in every run, and the words of the spec in which claims about commands, runs of
commands and whole messages are stated. -/

namespace Sys2Proof.Machine

/-! ### The invariant -/

/-- R35: IMPL of a bound context is a kernel id that serves its algorithm. -/
def implServes (cfg : Config) (x : Context) : Bool :=
  match x.impl with
  | none => false
  | some k => serves cfg.kernelTable x.alg k

/-- What every rule of 10_state.md keeps true of one context: R39 (BUFLEN < S), R53 and D40 (an Unbound context is as
reset left it), R35, R34 (BO is 0 for SHA-256), R331 (a Fresh context is as INIT left it), R334 (BUF of a Finalised
context is empty). -/
structure ContextOk (cfg : Config) (x : Context) : Prop where
  bufShort     : x.buf.length < stride cfg x
  unboundReset : x.life = .unbound → x = Context.reset
  boundServes  : x.life ≠ .unbound → implServes cfg x = true
  shaLittle    : x.alg = .sha256 → x.bo = .little
  freshInitial : x.life = .fresh → x.f4 = Quad.zero ∧ x.h = initialHash ∧ x.buf = [] ∧ x.count = 0
  finalEmpty   : x.life = .finalised → x.buf = []

/-- R46: payload words are due only after an UPDATE header, at least one, and with those taken they make the count its
NBYTES announces. -/
def framingOk : Framing → Prop
  | .idle => True
  | .payload hdr due taken => hdrOp hdr = opUpdate ∧ 0 < due ∧ due + taken.length = payloadWords hdr

/-- The invariant every step keeps. `capsUnread`: R45, R301 (an empty cache is 0, and no INIT has bound a context);
`portFits`: R468 (the response port never holds more than it can). -/
structure State.Inv (s : State) : Prop where
  contexts   : ∀ x ∈ s.ctxs, ContextOk s.cfg x
  framed     : framingOk s.framing
  capsUnread : s.capsValid = false → s.capsCache = 0 ∧ ∀ x ∈ s.ctxs, x.life = .unbound
  portFits   : s.respPort.length ≤ s.cfg.respDepth

/-- R40: the number of bytes of the message so far, as COUNT tells it. -/
def byteCount (x : Context) : Nat :=
  match x.alg with
  | .fletcher4 => x.count.toNat
  | .sha256 => x.count.toNat / 8

/-- R42, R216: while a message runs, BUFLEN is what remains of its length after whole strides, and COUNT of a SHA-256
context counts whole bytes. -/
def CountOk (cfg : Config) (x : Context) : Prop :=
  (x.life = .fresh ∨ x.life = .absorbing) →
    x.buf.length = byteCount x % stride cfg x ∧ (x.alg = .sha256 → x.count.toNat % 8 = 0)

/-! ### Commands and runs of commands -/

/-- The context a command names (R111); CAPS and ILLEGAL name none. -/
def commandCtx : Instr → Option (BitVec 4)
  | .initF4Le c _ => some c
  | .initF4Be c _ => some c
  | .initSha256 c _ => some c
  | .update c _ _ => some c
  | .finalize c => some c
  | .status c => some c
  | .caps => none
  | .illegal _ => none

/-- The commands of a list, one after the other (R94); none where one of them stops. -/
def execAll : List Instr → State → Option State
  | [], s => some s
  | i :: is, s =>
    match exec i s with
    | .next t => execAll is t
    | .fault _ => none
    | .refused _ => none

/-- UPDATE commands to context `c`, each with its NBYTES and payload words. -/
def updatesOf (c : BitVec 4) (us : List (BitVec 20 × List Word)) : List Instr :=
  us.map fun u => .update c u.1 u.2

/-- R83: the concatenated payload bytes of a list of updates. -/
def bytesOf (us : List (BitVec 20 × List Word)) : List Byte :=
  us.flatMap fun u => payloadBytes u.1.toNat u.2

/-- R405: the CODE of the command's response, the first condition in the order ILLEGAL_COMMAND, BAD_CONTEXT,
NOT_INITIALISED, ALREADY_FINALISED, INVALID_LENGTH that holds, and OK where none does. -/
def firstCode (i : Instr) (s : State) : Byte :=
  match i with
  | .illegal _ => 0x10#8
  | .caps => 0x00#8
  | .initF4Le c _ => if c.toNat < s.numContexts then 0x00#8 else 0x11#8
  | .initF4Be c _ => if c.toNat < s.numContexts then 0x00#8 else 0x11#8
  | .initSha256 c _ => if c.toNat < s.numContexts then 0x00#8 else 0x11#8
  | .status c => if c.toNat < s.numContexts then 0x00#8 else 0x11#8
  | .update c _ _ =>
    match s.ctx? c with
    | none => 0x11#8
    | some x => if x.life = .unbound then 0x12#8 else if x.life = .finalised then 0x02#8 else 0x00#8
  | .finalize c =>
    match s.ctx? c with
    | none => 0x11#8
    | some x =>
      if x.life = .unbound then 0x12#8
      else if x.life = .finalised then 0x02#8
      else if x.alg = .fletcher4 ∧ x.buf.length % 4 ≠ 0 then 0x01#8
      else 0x00#8

/-- R338: the next LIFE of the context a command names. -/
def nextLife (i : Instr) (l : Life) : Life :=
  match i with
  | .initF4Le _ _ => .fresh
  | .initF4Be _ _ => .fresh
  | .initSha256 _ _ => .fresh
  | .update _ _ _ =>
    match l with
    | .unbound => .unbound
    | .fresh => .absorbing
    | .absorbing => .absorbing
    | .finalised => .finalised
  | .finalize _ =>
    match l with
    | .unbound => .unbound
    | .fresh => .finalised
    | .absorbing => .finalised
    | .finalised => .finalised
  | .status _ => l
  | .caps => l
  | .illegal _ => l

/-- A turn in which the host writes a word. -/
def Turn.isWrite : Turn → Bool
  | .write _ => true
  | .core => false
  | .read => false
  | .setCaps _ => false
  | .reset => false

/-- R471: the run has ended: every word has been written and taken, and `framing` is Idle. A response is emitted whole
in the step of its command. -/
def State.ended (s : State) : Bool :=
  s.cmdPort.isEmpty && decide (s.framing = .idle) && s.turns.all fun t => !t.isWrite

/-- R471: the response words of a run, those the host has read and those still in the port. -/
def State.responses (s : State) : List Word := s.hostGot ++ s.respPort

/-! ### Whole messages -/

/-- R200: the sum over i = 1..n of weight(i) · f_{n−i}, modulo 2^64: the head of a list of n words has i = n. -/
def weightedSum (weight : Nat → Nat) : List Word → DWord
  | [] => 0
  | f :: rest => BitVec.ofNat 64 (weight (rest.length + 1)) * f.setWidth 64 + weightedSum weight rest

/-- R200: the Fletcher4 digest of a sequence of words. -/
def fletcherDigest (f : List Word) : Quad where
  a := weightedSum (fun _ => 1) f
  b := weightedSum (fun i => i) f
  c := weightedSum (fun i => i * (i + 1) / 2) f
  d := weightedSum (fun i => i * (i + 1) * (i + 2) / 6) f

/-- R262: the padded message: 0x80, the least number of zero bytes, the 64-bit bit length (modulo 2^64, R267). -/
def shaMessage (m : List Byte) : List Byte :=
  m ++ 0x80#8 :: List.replicate (padZeros m.length) 0#8 ++ be64 (BitVec.ofNat 64 (8 * m.length))

/-- R260, R264: the SHA-256 digest of a message: its padded blocks compressed in order from H^(0). -/
def shaDigest (m : List Byte) : Octet :=
  (pieces 64 ((shaMessage m).length / 64) (shaMessage m)).foldl shaCompress initialHash

end Sys2Proof.Machine
end

