-- ==== Sys2Proof/Certificates/Slice0/Obligations.lean ====
section
/-! DEFINITION. The statements for the provers, file by file of spec/. A docstring names the rule a statement
formalises; one that says "the model's choice" rests on the log entry it names. -/

open Sys2Proof Sys2Proof.Machine

/-! ### Encoding (spec/30_encoding.md) -/

/-- Words written out from the encodings of 95_test_vectors.md T-ENC-01 and T-ERR-01 decode to the commands they
stand for. -/
def Obligations.SpecEncodingsDecode : Prop :=
  command 0x00002201#32 [] = .initF4Be 2#4 .auto
  ∧ command 0x00004101#32 [] = .initF4Le 1#4 (.named .scalar)
  ∧ command 0x0001af01#32 [] = .initF4Be 15#4 (.named .simd512x8)
  ∧ command 0x0001d301#32 [] = .initSha256 3#4 (.named .shaNative)
  ∧ command 0x0003d001#32 [] = .initSha256 0#4 (.unknown 7#3)
  ∧ decode [0x00005202#32, 0x04030201#32, 0x00000005#32]
      = .ok (.update 2#4 5#20 [0x04030201#32, 0x00000005#32], [])
  ∧ command 0x00000f03#32 [] = .finalize 15#4
  ∧ command 0x00000304#32 [] = .status 3#4
  ∧ command 0x00000005#32 [] = .caps
  ∧ command 0x00003f01#32 [] = .illegal 0x01#8
  ∧ command 0x80000004#32 [] = .illegal 0x04#8
  ∧ command 0x000003ff#32 [] = .illegal 0xff#8

/-- Decoding the words of a well-formed command gives it back, with every operand, and leaves the words after it. -/
def Obligations.DecodeInvertsEncode : Prop :=
  ∀ (i : Instr) (rest : List Word), i.wf = true → decode (encode i ++ rest) = .ok (i, rest)

/-- The other direction: a header that is not illegal, with the payload words it announces, is what the encoder writes
for the command it decodes to. -/
def Obligations.EncodeInvertsDecode : Prop :=
  ∀ (hdr : Word) (payload : List Word), payload.length = payloadWords hdr →
    (∀ op, command hdr payload ≠ .illegal op) →
    (command hdr payload).wf = true ∧ encode (command hdr payload) = hdr :: payload

/-- R119: a header is illegal exactly on conditions (a) to (e); an illegal header takes no payload word, and executing
it changes no state but for the response ILLEGAL_COMMAND with its OP. -/
def Obligations.IllegalHeadersExactly : Prop :=
  ∀ (w : Word) (p : List Word),
    ((∃ op, command w p = .illegal op) ↔
      (w.extractLsb' 0 8 ∉ [0x01#8, 0x02#8, 0x03#8, 0x04#8, 0x05#8]
        ∨ (w.extractLsb' 0 8 = 0x01#8 ∧ w.extractLsb' 18 14 ≠ 0#14)
        ∨ (w.extractLsb' 0 8 = 0x01#8 ∧ w.extractLsb' 12 1 = 1#1 ∧ w.extractLsb' 13 1 = 1#1)
        ∨ ((w.extractLsb' 0 8 = 0x03#8 ∨ w.extractLsb' 0 8 = 0x04#8) ∧ w.extractLsb' 12 20 ≠ 0#20)
        ∨ (w.extractLsb' 0 8 = 0x05#8 ∧ w.extractLsb' 8 24 ≠ 0#24)))
    ∧ ∀ op, command w p = .illegal op →
        op = w.extractLsb' 0 8 ∧ payloadWords w = 0
        ∧ ∀ s : State, exec (.illegal op) s
            = .next { s with respPort := s.respPort ++ [0x00000010#32 ||| (op.setWidth 32 <<< 16)] }

/-- R118 and the rows of opcode_table.json: a header matches a row's match and mask exactly when it decodes to that
row's command, its operands read straight from their bits (R125); the request each IMPL code stands for (R117). -/
def Obligations.RowsMatchUnderTheirMasks : Prop :=
  ∀ (w : Word) (p : List Word),
    (w &&& 0xFFFC30FF#32 = 0x00000001#32 ↔
      command w p = .initF4Le (w.extractLsb' 8 4) (ImplReq.ofCode (w.extractLsb' 14 4)))
    ∧ (w &&& 0xFFFC30FF#32 = 0x00002001#32 ↔
      command w p = .initF4Be (w.extractLsb' 8 4) (ImplReq.ofCode (w.extractLsb' 14 4)))
    ∧ (w &&& 0xFFFC30FF#32 = 0x00001001#32 ↔
      command w p = .initSha256 (w.extractLsb' 8 4) (ImplReq.ofCode (w.extractLsb' 14 4)))
    ∧ (w &&& 0x000000FF#32 = 0x00000002#32 ↔
      command w p = .update (w.extractLsb' 8 4) (w.extractLsb' 12 20) p)
    ∧ (w &&& 0xFFFFF0FF#32 = 0x00000003#32 ↔ command w p = .finalize (w.extractLsb' 8 4))
    ∧ (w &&& 0xFFFFF0FF#32 = 0x00000004#32 ↔ command w p = .status (w.extractLsb' 8 4))
    ∧ (w = 0x00000005#32 ↔ command w p = .caps)
    ∧ ∀ code : BitVec 4, ImplReq.ofCode code = (match code.toNat with
        | 0 => .auto
        | 1 => .named .scalar
        | 2 => .named .simd128x2
        | 3 => .named .simd128x4
        | 4 => .named .simd256x4
        | 5 => .named .simd256x8
        | 6 => .named .simd512x8
        | 7 => .named .shaNative
        | n => .unknown (BitVec.ofNat 3 (n - 8)))

/-- R110: the length of a command is fixed by its header, 1 + ⌈NBYTES / 4⌉ words for UPDATE and 1 for every other
header, so a decoder at a command boundary finds the next header. -/
def Obligations.HeaderFixesLength : Prop :=
  ∀ (hdr : Word) (payload rest : List Word),
    (hdr.extractLsb' 0 8 = 0x02#8 →
      (hdr.extractLsb' 12 20).toNat ≤ 4 * payload.length
        ∧ 4 * payload.length < (hdr.extractLsb' 12 20).toNat + 4) →
    (hdr.extractLsb' 0 8 ≠ 0x02#8 → payload = []) →
    decode (hdr :: (payload ++ rest)) = .ok (command hdr payload, rest)

/-! ### Ports, framing, steps (spec/20_memory.md, spec/10_state.md R46, spec/70_reset_and_hazards.md) -/

/-- R11, R400: every step and every command in every state has a next state; nothing faults or is refused. -/
def Obligations.StepTotal : Prop :=
  ∀ s : State, (∃ t, step s = .next t) ∧ ∀ i, ∃ t, exec i s = .next t

/-- R330, R81, R468: a step runs the decoded command. Where the CORE has the next turn and the word it comes to completes
a command, a header with no payload words from an Idle port or the last payload word due, the step is exactly exec of the
command those words decode to, with the word gone from the port and `framing` Idle, if its response fits the response
port; if it does not fit, the word is not taken and the CORE holds its state. -/
def Obligations.StepRunsDecodedCommand : Prop :=
  ∀ (s : State) (ts : List Turn) (w : Word) (rest : List Word) (i : Instr),
    ((s.turns = [] ∧ ts = []) ∨ s.turns = .core :: ts) →
    s.cmdPort = w :: rest →
    ((s.framing = .idle ∧ decode [w] = .ok (i, []))
      ∨ ∃ hdr taken, s.framing = .payload hdr 1 taken ∧ decode (hdr :: (taken.reverse ++ [w])) = .ok (i, [])) →
    ∃ t, exec i { s with turns := ts, cmdPort := rest, framing := .idle } = .next t
      ∧ step s = .next (if t.respPort.length ≤ s.cfg.respDepth then t else { s with turns := ts })

/-- R46, R81, R468: with room for UPDATE's one response word, an UPDATE header with payload words opens the payload, and a
payload word that is not the last one is stored, whatever its bits; nothing else changes but the turn taken. -/
def Obligations.FramingTakesPayload : Prop :=
  ∀ (s : State) (ts : List Turn) (w : Word) (rest : List Word),
    ((s.turns = [] ∧ ts = []) ∨ s.turns = .core :: ts) →
    s.respPort.length < s.cfg.respDepth → s.cmdPort = w :: rest →
    (s.framing = .idle → w.extractLsb' 0 8 = 0x02#8 → w.extractLsb' 12 20 ≠ 0#20 →
      step s = .next { s with
        turns := ts, cmdPort := rest, framing := .payload w (((w.extractLsb' 12 20).toNat + 3) / 4) [] })
    ∧ ∀ hdr k taken, s.framing = .payload hdr (k + 2) taken →
      step s = .next { s with turns := ts, cmdPort := rest, framing := .payload hdr (k + 1) (w :: taken) }

/-- R11, R91: taken word by word, a whole command whose response fits has exactly its atomic effect, and only when its last word is taken:
as many steps as it has words are exec of it. -/
def Obligations.WordsOfCommandRunIt : Prop :=
  ∀ (s : State) (i : Instr) (rest : List Word),
    i.wf = true → s.turns = [] → s.framing = .idle → s.cmdPort = encode i ++ rest →
    (∀ t, exec i { s with cmdPort := rest } = .next t → t.respPort.length ≤ s.cfg.respDepth) →
    (∀ k, k < (encode i).length → ∃ t, Host.Core.run Sys2Proof.core k s = .next t
      ∧ t.ctxs = s.ctxs ∧ t.respPort = s.respPort ∧ t.capsValid = s.capsValid ∧ t.capsCache = s.capsCache)
    ∧ Host.Core.run Sys2Proof.core (encode i).length s = exec i { s with cmdPort := rest }

/-- R468, R420, R81, R82, R300: the moves that run no command, and all that each changes. The CORE's move takes no word
where the response port is full, and where there is no word; a read takes the oldest response word and loses none, and a
read of an empty port gets nothing (the host's record and the empty read are the model's choice, log 14); a write appends
its word to the command port; a change of `caps_in` changes that level alone. -/
def Obligations.HoldsWithoutRoomOrWord : Prop :=
  ∀ (s : State) (ts : List Turn),
    ((s.turns = [] ∧ ts = []) ∨ s.turns = .core :: ts →
      s.cfg.respDepth ≤ s.respPort.length ∨ s.cmdPort = [] → step s = .next { s with turns := ts })
    ∧ (s.turns = .read :: ts →
      (∀ w port, s.respPort = w :: port →
        step s = .next { s with turns := ts, respPort := port, hostGot := s.hostGot ++ [w] })
      ∧ (s.respPort = [] → step s = .next { s with turns := ts }))
    ∧ (∀ w, s.turns = .write w :: ts → step s = .next { s with turns := ts, cmdPort := s.cmdPort ++ [w] })
    ∧ ∀ v, s.turns = .setCaps v :: ts → step s = .next { s with turns := ts, capsIn := v }

/-- R471, R94: a run of the words of any list of commands, whose responses fit the port, is the commands one after
the other; after as many steps as there are words the run has ended, with one response of 1 to 9 words a command, in
order. -/
def Obligations.RunOfCommands : Prop :=
  ∀ (s : State) (is : List Instr),
    (∀ i ∈ is, i.wf = true) → s.turns = [] → s.framing = .idle → s.cmdPort = is.flatMap encode →
    (∀ t, execAll is { s with cmdPort := [] } = some t → t.respPort.length ≤ s.cfg.respDepth) →
    ∃ (t : State) (rs : List (List Word)),
      execAll is { s with cmdPort := [] } = some t
      ∧ Host.Core.run Sys2Proof.core s.cmdPort.length s = .next t
      ∧ t.ended = true
      ∧ rs.length = is.length ∧ (∀ r ∈ rs, 1 ≤ r.length ∧ r.length ≤ 9)
      ∧ t.responses = s.responses ++ rs.flatten

/-- R82: but for reset, no step drops, reorders or merges response words: what the host has read followed by what waits
in the port only grows at its end. -/
def Obligations.ResponsesOnlyAppend : Prop :=
  ∀ s t : State, step s = .next t → s.turns.head? ≠ some .reset →
    ∃ new, t.hostGot ++ t.respPort = (s.hostGot ++ s.respPort) ++ new

/-- R82, R121, R122, R330, R405: every command appends exactly one response, a status word and the payload words it
announces: CODE is the first error in the order of R405 or OK, OPC copies the header's OP, NWORDS counts the payload,
WARN is 0 but for an OK of INIT, the reserved bits are 0, an error has no payload, and an OK has the payload words of
R122. -/
def Obligations.OneResponsePerCommand : Prop :=
  ∀ (i : Instr) (s : State), ∃ (t : State) (rsp : Word) (p : List Word),
    exec i s = .next t ∧ t.respPort = s.respPort ++ rsp :: p
    ∧ rsp.extractLsb' 0 8 = firstCode i s
    ∧ (rsp.extractLsb' 8 1 = 1#1 → i.op = 0x01#8 ∧ rsp.extractLsb' 0 8 = 0x00#8)
    ∧ rsp.extractLsb' 9 3 = 0#3
    ∧ p.length ≤ 8 ∧ (rsp.extractLsb' 12 4).toNat = p.length
    ∧ rsp.extractLsb' 16 8 = i.op
    ∧ rsp.extractLsb' 24 8 = 0#8
    ∧ p.length = (if firstCode i s ≠ 0x00#8 then 0 else
        match i with
        | .initF4Le _ _ => 1
        | .initF4Be _ _ => 1
        | .initSha256 _ _ => 1
        | .update _ _ _ => 0
        | .finalize _ => 8
        | .status _ => 3
        | .caps => 3
        | .illegal _ => 0)

/-- R83: byte k of a payload is bits [8(k mod 4) + 7 : 8(k mod 4)] of word ⌊k/4⌋. -/
def Obligations.PayloadBytesArePacked : Prop :=
  ∀ (n : Nat) (p : List Word), n ≤ 4 * p.length →
    (payloadBytes n p).length = n
    ∧ ∀ k (w : Word), k < n → p[k / 4]? = some w → (payloadBytes n p)[k]? = some (w.extractLsb' (8 * (k % 4)) 8)

/-- R84: the pad bits of the last payload word reach no state: UPDATEs whose last words agree below bit
8·(NBYTES mod 4) have the same effect and response; an UPDATE of no bytes has no payload word. -/
def Obligations.PadBitsIgnored : Prop :=
  ∀ (s : State) (c : BitVec 4) (n : BitVec 20) (p : List Word) (w v : Word),
    n.toNat % 4 ≠ 0 → p.length = n.toNat / 4 →
    (∀ k, k < 8 * (n.toNat % 4) → w.getLsbD k = v.getLsbD k) →
    exec (.update c n (p ++ [w])) s = exec (.update c n (p ++ [v])) s ∧ payloadLen 0#20 = 0

/-- R86, R201: little-endian and big-endian decoding of four message bytes; word i of a message is decoded from its
bytes 4i to 4i + 3. -/
def Obligations.WordDecodingByByteOrder : Prop :=
  ∀ b0 b1 b2 b3 : Byte,
    (∀ (bo : ByteOrder) (pre post : List Byte), pre.length % 4 = 0 →
      (wordsOf bo (pre ++ b0 :: b1 :: b2 :: b3 :: post))[pre.length / 4]? = some (decodeWord bo b0 b1 b2 b3))
    ∧ decodeWord .little b0 b1 b2 b3
      = b0.setWidth 32 ||| (b1.setWidth 32 <<< 8) ||| (b2.setWidth 32 <<< 16) ||| (b3.setWidth 32 <<< 24)
    ∧ decodeWord .big b0 b1 b2 b3
      = (b0.setWidth 32 <<< 24) ||| (b1.setWidth 32 <<< 16) ||| (b2.setWidth 32 <<< 8) ||| b3.setWidth 32

/-! ### Reset (spec/10_state.md R53, spec/70_reset_and_hazards.md) -/

/-- R53: the value every piece of state has after reset, on the default of four contexts (R6). -/
def Obligations.ResetValues : Prop :=
  State.reset.capsValid = false ∧ State.reset.capsCache = 0#7 ∧ State.reset.framing = .idle
  ∧ State.reset.respPort = []
  ∧ ∀ c : BitVec 4, State.reset.ctx? c = if c.toNat < 4 then
      some { life := .unbound, alg := .fletcher4, bo := .little, impl := none, warn := false,
             f4 := { a := 0, b := 0, c := 0, d := 0 },
             h := { h0 := 0, h1 := 0, h2 := 0, h3 := 0, h4 := 0, h5 := 0, h6 := 0, h7 := 0 },
             buf := [], count := 0 } else none

/-- R450, R451, R462: a reset, asserted in any state, between the words of a command too, gives every piece of state its
value of R53, samples nothing, discards the partly taken command and the unread responses, and changes no parameter. -/
def Obligations.ResetAnywhere : Prop :=
  ∀ (s : State) (ts : List Turn), s.turns = .reset :: ts →
    ∃ t, step s = .next t ∧ t.turns = ts
      ∧ t.capsValid = false ∧ t.capsCache = 0#7 ∧ t.framing = .idle ∧ t.respPort = []
      ∧ t.numContexts = s.numContexts ∧ t.cfg = s.cfg
      ∧ ∀ (c : BitVec 4) (x : Context), t.ctx? c = some x → x = Context.reset

/-- R462: no step, no command and no reset changes a parameter of the CORE. -/
def Obligations.ParametersNeverChange : Prop :=
  ∀ s t : State, step s = .next t → t.cfg = s.cfg ∧ t.numContexts = s.numContexts

/-! ### Dispatch (spec/42_dispatch.md) -/

/-- R305: scalar is available for both algorithms in every CORE; with the table of R303, the kernels available for each
algorithm. -/
def Obligations.AvailabilityByTable : Prop :=
  (∀ (cfg : Config) (caps : BitVec 7) (alg : Alg), avail cfg caps alg .scalar = true)
  ∧ ∀ (cfg : Config) (caps : BitVec 7), cfg.kernelTable = defaultKernelTable →
    (∀ k, avail cfg caps .fletcher4 k = true ↔
      k = .scalar
      ∨ (k = .simd128x2 ∧ cfg.validatedMask.getLsbD 1 = true ∧ caps.getLsbD 0 = true)
      ∨ (k = .simd128x4 ∧ cfg.validatedMask.getLsbD 2 = true ∧ caps.getLsbD 1 = true)
      ∨ (k = .simd256x4 ∧ cfg.validatedMask.getLsbD 3 = true ∧ caps.getLsbD 2 = true)
      ∨ (k = .simd256x8 ∧ cfg.validatedMask.getLsbD 4 = true ∧ caps.getLsbD 2 = true)
      ∨ (k = .simd512x8 ∧ cfg.validatedMask.getLsbD 5 = true ∧ caps.getLsbD 3 = true))
    ∧ (∀ k, avail cfg caps .sha256 k = true ↔
      k = .scalar
      ∨ (k = .simd128x4 ∧ cfg.validatedMask.getLsbD 2 = true ∧ caps.getLsbD 1 = true)
      ∨ (k = .simd256x4 ∧ cfg.validatedMask.getLsbD 3 = true ∧ caps.getLsbD 2 = true)
      ∨ (k = .shaNative ∧ cfg.validatedMask.getLsbD 6 = true ∧ caps.getLsbD 6 = true))

/-- R306: automatic selection takes the first available kernel of the algorithm's priority list, without a warning. -/
def Obligations.AutoSelectsFirstAvailable : Prop :=
  ∀ (cfg : Config) (caps : BitVec 7) (alg : Alg), cfg.kernelTable = defaultKernelTable →
    ∃ pre k post,
      (match alg with
        | .fletcher4 =>
          [KernelId.simd512x8, .simd256x8, .simd256x4, .simd128x4, .simd128x2, .scalar]
        | .sha256 => [KernelId.shaNative, .simd256x4, .simd128x4, .scalar]) = pre ++ k :: post
      ∧ (∀ j, j ∈ pre → avail cfg caps alg j = false) ∧ avail cfg caps alg k = true
      ∧ select cfg caps alg .auto = (k, false)

/-- R307, R308, R404: an explicit request for an available kernel is granted; an unavailable or unknown one downgrades to
scalar with WARN. In every table a selected kernel serves the algorithm. -/
def Obligations.RequestGrantedOrDowngraded : Prop :=
  ∀ (cfg : Config) (caps : BitVec 7) (alg : Alg),
    (∀ k, avail cfg caps alg k = true → select cfg caps alg (.named k) = (k, false))
    ∧ (∀ k, avail cfg caps alg k = false → select cfg caps alg (.named k) = (.scalar, true))
    ∧ (∀ low, select cfg caps alg (.unknown low) = (.scalar, true))
    ∧ ∀ req, serves cfg.kernelTable alg (select cfg caps alg req).1 = true

/-- R45, R99: once filled, the capability cache never changes until reset. -/
def Obligations.CacheWrittenOnce : Prop :=
  ∀ s t : State, s.capsValid = true → s.turns.head? ≠ some .reset → step s = .next t →
    t.capsValid = true ∧ t.capsCache = s.capsCache

/-- R301: only CAPS and an INIT that passes its check fill the cache, with `caps_in` as it is at that step; no other
command touches it. -/
def Obligations.OnlyInitAndCapsSample : Prop :=
  ∀ (i : Instr) (s t : State), exec i s = .next t →
    (s.capsValid = false → (i = .caps ∨ ∃ c req, c.toNat < s.numContexts
        ∧ (i = .initF4Le c req ∨ i = .initF4Be c req ∨ i = .initSha256 c req)) →
      t.capsValid = true ∧ t.capsCache = s.capsIn)
    ∧ ((s.capsValid = true ∨ (i ≠ .caps ∧ ∀ c req, c.toNat < s.numContexts →
        i ≠ .initF4Le c req ∧ i ≠ .initF4Be c req ∧ i ≠ .initSha256 c req)) →
      t.capsValid = s.capsValid ∧ t.capsCache = s.capsCache)

/-- R463: after the first sample no command depends on `caps_in`. -/
def Obligations.CapsInIgnoredAfterSample : Prop :=
  ∀ (i : Instr) (s t : State) (v : BitVec 7), s.capsValid = true → exec i s = .next t →
    exec i { s with capsIn := v } = .next { t with capsIn := v }

/-! ### Commands (spec/43_commands.md, spec/60_exceptions.md) -/

/-- R331: INIT of a context in range, in any LIFE: it samples `caps_in` if the cache is empty, selects the kernel, writes
every field of the context and answers OK with WARN and the new CTXSTAT; nothing else changes. -/
def Obligations.InitBindsContext : Prop :=
  ∀ (s : State) (c : BitVec 4) (req : ImplReq), c.toNat < s.numContexts →
    ∀ (i : Instr) (alg : Alg) (bo : ByteOrder),
      ((i = .initF4Le c req ∧ alg = .fletcher4 ∧ bo = .little)
        ∨ (i = .initF4Be c req ∧ alg = .fletcher4 ∧ bo = .big)
        ∨ (i = .initSha256 c req ∧ alg = .sha256 ∧ bo = .little)) →
      ∃ (cache : BitVec 7) (k : KernelId) (warn : Bool) (x : Context),
        cache = (if s.capsValid then s.capsCache else s.capsIn)
        ∧ (k, warn) = select s.cfg cache alg req
        ∧ x = { life := .fresh, alg := alg, bo := bo, impl := some k, warn := warn,
                f4 := { a := 0, b := 0, c := 0, d := 0 },
                h := { h0 := 0x6a09e667#32, h1 := 0xbb67ae85#32, h2 := 0x3c6ef372#32, h3 := 0xa54ff53a#32,
                       h4 := 0x510e527f#32, h5 := 0x9b05688c#32, h6 := 0x1f83d9ab#32, h7 := 0x5be0cd19#32 },
                buf := [], count := 0 }
        ∧ exec i s = .next { s with
            capsValid := true, capsCache := cache, ctxs := s.ctxs.set c.toNat x,
            respPort := s.respPort ++ [if warn then 0x00011100#32 else 0x00011000#32, ctxStat s.cfg x] }

/-- R406: INIT, UPDATE, FINALIZE and STATUS of a context number not below NUM_CONTEXTS answer BAD_CONTEXT and change
nothing else; with NUM_CONTEXTS = 16 every context number is in range. -/
def Obligations.ContextOutOfRange : Prop :=
  ∀ (s : State) (c : BitVec 4),
    (s.numContexts = 16 → c.toNat < s.numContexts)
    ∧ (s.numContexts ≤ c.toNat → ∀ req n p,
        exec (.initF4Le c req) s = .next { s with respPort := s.respPort ++ [0x00010011#32] }
        ∧ exec (.initF4Be c req) s = .next { s with respPort := s.respPort ++ [0x00010011#32] }
        ∧ exec (.initSha256 c req) s = .next { s with respPort := s.respPort ++ [0x00010011#32] }
        ∧ exec (.update c n p) s = .next { s with respPort := s.respPort ++ [0x00020011#32] }
        ∧ exec (.finalize c) s = .next { s with respPort := s.respPort ++ [0x00030011#32] }
        ∧ exec (.status c) s = .next { s with respPort := s.respPort ++ [0x00040011#32] })

/-- R407, R402: UPDATE and FINALIZE of an Unbound context answer NOT_INITIALISED, of a Finalised one ALREADY_FINALISED,
and change nothing else. -/
def Obligations.NotLiveRefused : Prop :=
  ∀ (s : State) (c : BitVec 4) (x : Context) (n : BitVec 20) (p : List Word), s.ctx? c = some x →
    (x.life = .unbound →
      exec (.update c n p) s = .next { s with respPort := s.respPort ++ [0x00020012#32] }
      ∧ exec (.finalize c) s = .next { s with respPort := s.respPort ++ [0x00030012#32] })
    ∧ (x.life = .finalised →
      exec (.update c n p) s = .next { s with respPort := s.respPort ++ [0x00020002#32] }
      ∧ exec (.finalize c) s = .next { s with respPort := s.respPort ++ [0x00030002#32] })

/-- R332 with R42: UPDATE of a Fresh or Absorbing context whose buffer is shorter than the stride. With m the buffered
bytes followed by the payload bytes, the whole strides of m advance the running state (the Fletcher4 sums as the scalar
kernel would, the SHA-256 words block by block), what is left of m is the buffer, COUNT grows by the bytes (Fletcher4)
or bits (SHA-256), LIFE is Absorbing; the response is OK with no payload, and nothing else changes. -/
def Obligations.UpdateAbsorbsWholeStrides : Prop :=
  ∀ (s : State) (c : BitVec 4) (n : BitVec 20) (p : List Word) (x : Context),
    s.ctx? c = some x → (x.life = .fresh ∨ x.life = .absorbing) → x.buf.length < stride s.cfg x →
    p.length = (n.toNat + 3) / 4 →
    ∃ (m : List Byte) (q : Nat) (y : Context),
      m = x.buf ++ payloadBytes n.toNat p ∧ q = m.length / stride s.cfg x
      ∧ y = { x with
          life := .absorbing
          f4 := if x.alg = .fletcher4 then f4Scalar x.f4 (wordsOf x.bo (m.take (q * stride s.cfg x))) else x.f4
          h := if x.alg = .sha256 then (pieces 64 q m).foldl shaCompress x.h else x.h
          buf := m.drop (q * stride s.cfg x)
          count := x.count + BitVec.ofNat 64 (if x.alg = .sha256 then 8 * n.toNat else n.toNat) }
      ∧ exec (.update c n p) s = .next { s with
          ctxs := s.ctxs.set c.toNat y, respPort := s.respPort ++ [0x00020000#32] }

/-- R332, corner cases, R421: an UPDATE of no bytes has exactly the effect LIFE <- Absorbing. -/
def Obligations.EmptyUpdateOnlyAbsorbs : Prop :=
  ∀ (s : State) (c : BitVec 4) (x : Context),
    s.ctx? c = some x → (x.life = .fresh ∨ x.life = .absorbing) → x.buf.length < stride s.cfg x →
    exec (.update c 0#20 []) s = .next { s with
      ctxs := s.ctxs.set c.toNat { x with life := .absorbing }, respPort := s.respPort ++ [0x00020000#32] }

/-- R333: any number of UPDATEs of a context, at least one, leave the state of its context, and every other context, as
one UPDATE of all their bytes does, and a FINALIZE after them gives the same response. -/
def Obligations.UpdateSplitting : Prop :=
  ∀ (s : State) (c : BitVec 4) (x : Context) (us : List (BitVec 20 × List Word)) (n : BitVec 20) (p : List Word),
    s.ctx? c = some x → (x.life = .fresh ∨ x.life = .absorbing) → x.buf.length < stride s.cfg x →
    us ≠ [] → (∀ u ∈ us, u.2.length = payloadLen u.1) → p.length = payloadLen n →
    payloadBytes n.toNat p = bytesOf us →
    ∃ t u, execAll (updatesOf c us) s = some t ∧ exec (.update c n p) s = .next u ∧ t.ctxs = u.ctxs
      ∧ ∃ v w r, exec (.finalize c) t = .next v ∧ exec (.finalize c) u = .next w
        ∧ v.respPort = t.respPort ++ r ∧ w.respPort = u.respPort ++ r

/-- R334, R215, R89: FINALIZE of a Fresh or Absorbing Fletcher4 context with whole words in its buffer runs them through
the scalar step, consumes the context, keeps COUNT and answers A, B, C, D, low halves first; nothing else changes. -/
def Obligations.FinalizeFletcher : Prop :=
  ∀ (s : State) (c : BitVec 4) (x : Context),
    s.ctx? c = some x → (x.life = .fresh ∨ x.life = .absorbing) → x.alg = .fletcher4 → x.buf.length % 4 = 0 →
    ∃ q, q = f4Scalar x.f4 (wordsOf x.bo x.buf)
      ∧ exec (.finalize c) s = .next { s with
          ctxs := s.ctxs.set c.toNat { x with life := .finalised, buf := [], f4 := q }
          respPort := s.respPort ++ [0x00038000#32,
            q.a.extractLsb' 0 32, q.a.extractLsb' 32 32, q.b.extractLsb' 0 32, q.b.extractLsb' 32 32,
            q.c.extractLsb' 0 32, q.c.extractLsb' 32 32, q.d.extractLsb' 0 32, q.d.extractLsb' 32 32] }

/-- R403, R409: FINALIZE of a Fletcher4 context whose buffer is not whole words answers INVALID_LENGTH with no digest and
consumes the context; the sums and COUNT stay, and nothing else changes. -/
def Obligations.FinalizeInvalidLength : Prop :=
  ∀ (s : State) (c : BitVec 4) (x : Context),
    s.ctx? c = some x → (x.life = .fresh ∨ x.life = .absorbing) → x.alg = .fletcher4 → x.buf.length % 4 ≠ 0 →
    exec (.finalize c) s = .next { s with
      ctxs := s.ctxs.set c.toNat { x with life := .finalised, buf := [] }
      respPort := s.respPort ++ [0x00030001#32] }

/-- R334, R262, R263, R88: FINALIZE of a Fresh or Absorbing SHA-256 context compresses the padded buffer, one block or
two, consumes the context, keeps COUNT and answers H[0] to H[7]; nothing else changes. -/
def Obligations.FinalizeSha : Prop :=
  ∀ (s : State) (c : BitVec 4) (x : Context),
    s.ctx? c = some x → (x.life = .fresh ∨ x.life = .absorbing) → x.alg = .sha256 → x.buf.length < 64 →
    ∃ (z : Nat) (pad : List Byte) (h : Octet),
      z < 64 ∧ (x.buf.length + 1 + z + 8) % 64 = 0
      ∧ pad = x.buf ++ [0x80#8] ++ List.replicate z 0x00#8
          ++ (List.range 8).map (fun k => x.count.extractLsb' (56 - 8 * k) 8)
      ∧ (x.buf.length ≤ 55 → pad.length = 64 ∧ h = shaCompress x.h pad)
      ∧ (56 ≤ x.buf.length → pad.length = 128
          ∧ h = shaCompress (shaCompress x.h (pad.take 64)) (pad.drop 64))
      ∧ exec (.finalize c) s = .next { s with
          ctxs := s.ctxs.set c.toNat { x with life := .finalised, buf := [], h := h }
          respPort := s.respPort ++ [0x00038000#32, h.h0, h.h1, h.h2, h.h3, h.h4, h.h5, h.h6, h.h7] }

/-- R335: STATUS of a context in range, in any LIFE, answers CTXSTAT and both halves of COUNT, and BAD_CONTEXT out of
range; it changes nothing else. -/
def Obligations.StatusAnswers : Prop :=
  ∀ (s : State) (c : BitVec 4),
    (∀ x, s.ctx? c = some x → exec (.status c) s = .next { s with
      respPort := s.respPort ++
        [0x00043000#32, ctxStat s.cfg x, x.count.extractLsb' 0 32, x.count.extractLsb' 32 32] })
    ∧ (s.numContexts ≤ c.toNat → exec (.status c) s = .next { s with respPort := s.respPort ++ [0x00040011#32] })

/-- R336: CAPS samples `caps_in` if the cache is empty and answers CAPSWORD, VALIDWORD and AVAILWORD; nothing else
changes. -/
def Obligations.CapsAnswers : Prop :=
  ∀ s : State, ∃ t, t = { s with capsValid := true, capsCache := if s.capsValid then s.capsCache else s.capsIn }
    ∧ exec .caps s = .next { t with
        respPort := s.respPort ++ [0x00053000#32, capsWord t, validWord t, availWord t] }

/-- R337, R408: an illegal header answers ILLEGAL_COMMAND with its OP and changes nothing else. -/
def Obligations.IllegalAnswers : Prop :=
  ∀ (op : Byte) (s : State),
    exec (.illegal op) s
      = .next { s with respPort := s.respPort ++ [0x00000010#32 ||| (op.setWidth 32 <<< 16)] }

/-- R49, R41, R303: the fields of CTXSTAT; the lanes K of each kernel id of the default table, in LANES and in the stride
(4·K bytes for Fletcher4, 64 for SHA-256). -/
def Obligations.CtxStatFields : Prop :=
  ∀ (cfg : Config) (x : Context), x.buf.length < 64 →
    (ctxStat cfg x).extractLsb' 0 2
      = (match x.life with | .unbound => 0#2 | .fresh => 1#2 | .absorbing => 2#2 | .finalised => 3#2)
    ∧ (ctxStat cfg x).extractLsb' 2 1 = (match x.alg with | .fletcher4 => 0#1 | .sha256 => 1#1)
    ∧ (ctxStat cfg x).extractLsb' 3 1 = (match x.bo with | .little => 0#1 | .big => 1#1)
    ∧ (ctxStat cfg x).extractLsb' 4 4
      = (match x.impl with
          | none => 0#4 | some .scalar => 1#4 | some .simd128x2 => 2#4 | some .simd128x4 => 3#4
          | some .simd256x4 => 4#4 | some .simd256x8 => 5#4 | some .simd512x8 => 6#4 | some .shaNative => 7#4)
    ∧ ((ctxStat cfg x).extractLsb' 8 4).toNat
      = (if x.alg = .fletcher4 ∧ x.life ≠ .unbound then laneCount (lanesOf cfg x) else 0)
    ∧ (ctxStat cfg x).extractLsb' 12 1
      = (if x.life ≠ .unbound ∧ x.impl ≠ some .scalar then 1#1 else 0#1)
    ∧ (ctxStat cfg x).extractLsb' 13 1 = (if x.warn then 1#1 else 0#1)
    ∧ (ctxStat cfg x).extractLsb' 14 2 = 0#2
    ∧ ((ctxStat cfg x).extractLsb' 16 7).toNat = x.buf.length
    ∧ (ctxStat cfg x).extractLsb' 23 9 = 0#9
    ∧ (x.alg = .sha256 → stride cfg x = 64)
    ∧ (cfg.kernelTable = defaultKernelTable → x.alg = .fletcher4 → ∀ (k : KernelId) (n : Nat),
        (k, n) ∈ [(KernelId.scalar, 1), (.simd128x2, 2), (.simd128x4, 4), (.simd256x4, 4), (.simd256x8, 8),
          (.simd512x8, 8)] →
        x.impl = some k →
        stride cfg x = 4 * n ∧ (x.life ≠ .unbound → ((ctxStat cfg x).extractLsb' 8 4).toNat = n))

/-- R50: the bits of CAPSWORD, VALIDWORD and AVAILWORD; `id` is the kernel with that number. -/
def Obligations.CapsWordBits : Prop :=
  ∀ s : State,
    (∀ i, i < 32 → (capsWord s).getLsbD i = (decide (i ≤ 6) && s.capsCache.getLsbD i))
    ∧ (∀ i, i < 32 → (∀ k : KernelId, k.code.toNat ≠ i) → (validWord s).getLsbD i = false)
    ∧ (∀ k : KernelId, (validWord s).getLsbD k.code.toNat
        = (decide (k = .scalar) || s.cfg.validatedMask.getLsbD (k.code.toNat - 1)))
    ∧ (∀ k : KernelId, (availWord s).getLsbD k.code.toNat = avail s.cfg s.capsCache .fletcher4 k
        ∧ (availWord s).getLsbD (8 + k.code.toNat) = avail s.cfg s.capsCache .sha256 k)
    ∧ (availWord s).getLsbD 0 = false ∧ (availWord s).getLsbD 8 = false
    ∧ ∀ i, 16 ≤ i → i < 32 → (availWord s).getLsbD i = false

/-- R338: the next LIFE of the context a command names, in range, and the CODE of its response; CAPS and ILLEGAL touch no
context. -/
def Obligations.LifecycleTable : Prop :=
  ∀ (i : Instr) (s t : State), exec i s = .next t →
    (∀ c x, commandCtx i = some c → s.ctx? c = some x →
      ∃ y rsp p, t.ctx? c = some y ∧ y.life = nextLife i x.life
        ∧ t.respPort = s.respPort ++ rsp :: p ∧ rsp.extractLsb' 0 8 = firstCode i s)
    ∧ (commandCtx i = none → t.ctxs = s.ctxs)

/-- R409: a command that ends with CODE ≠ OK answers that code with no payload and changes nothing else, except that
INVALID_LENGTH consumes the context: Finalised, buffer empty, sums and COUNT kept. -/
def Obligations.ErrorsChangeNothing : Prop :=
  ∀ (i : Instr) (s : State), firstCode i s ≠ 0x00#8 →
    ∃ rsp : Word, rsp.extractLsb' 0 8 = firstCode i s
      ∧ (firstCode i s ≠ 0x01#8 → exec i s = .next { s with respPort := s.respPort ++ [rsp] })
      ∧ (firstCode i s = 0x01#8 → ∃ c x, i = .finalize c ∧ s.ctx? c = some x
          ∧ exec i s = .next { s with
              ctxs := s.ctxs.set c.toNat { x with life := .finalised, buf := [] }
              respPort := s.respPort ++ [rsp] })

/-- R31, and the frame of every command: contexts a command does not name are unchanged, and so are the parameters, the
framing, the command port, `caps_in`, the host's record and its turns. -/
def Obligations.ContextsIndependent : Prop :=
  ∀ (i : Instr) (s t : State), exec i s = .next t →
    (∀ c, commandCtx i ≠ some c → t.ctx? c = s.ctx? c)
    ∧ t.numContexts = s.numContexts ∧ t.cfg = s.cfg ∧ t.framing = s.framing ∧ t.cmdPort = s.cmdPort
    ∧ t.capsIn = s.capsIn ∧ t.hostGot = s.hostGot ∧ t.turns = s.turns

/-- R31: what a command does to its context, and what it answers, depends on no other context: two machines that agree
on that context, on the capability cache and input, and on the parameters give the same context and response. -/
def Obligations.CommandReadsOnlyItsContext : Prop :=
  ∀ (i : Instr) (s s' : State) (c : BitVec 4) (x : Context),
    commandCtx i = some c → s.ctx? c = some x → s'.ctx? c = some x → s'.cfg = s.cfg →
    s'.capsValid = s.capsValid → s'.capsCache = s.capsCache → s'.capsIn = s.capsIn →
    ∃ t t' y r, exec i s = .next t ∧ exec i s' = .next t' ∧ t.ctx? c = some y ∧ t'.ctx? c = some y
      ∧ t.respPort = s.respPort ++ r ∧ t'.respPort = s'.respPort ++ r

/-! ### Fletcher4 engine (spec/40_fletcher4.md) -/

/-- R202, R203 with its Law, R200: the scalar step, the scalar run, and that the run from zero computes the digest of
the definition. -/
def Obligations.ScalarComputesDigest : Prop :=
  (∀ a b c d : DWord, ∀ f : Word,
    f4Step { a := a, b := b, c := c, d := d } f =
      { a := a + f.setWidth 64, b := b + (a + f.setWidth 64), c := c + (b + (a + f.setWidth 64)),
        d := d + (c + (b + (a + f.setWidth 64))) })
  ∧ (∀ s : Quad, f4Scalar s [] = s)
  ∧ (∀ (s : Quad) (w : List Word) (f : Word), f4Scalar s (w ++ [f]) = f4Step (f4Scalar s w) f)
  ∧ ∀ f : List Word, f4Scalar { a := 0, b := 0, c := 0, d := 0 } f = fletcherDigest f

/-- R204: continuing from any state is merging the run's own sums into it. -/
def Obligations.MergeContinuesRun : Prop :=
  ∀ (s q : Quad) (w : List Word) (n n2 n3 : DWord),
    q = f4Scalar { a := 0, b := 0, c := 0, d := 0 } w →
    n = BitVec.ofNat 64 w.length → n2 = BitVec.ofNat 64 (w.length * (w.length + 1) / 2) →
    n3 = BitVec.ofNat 64 (w.length * (w.length + 1) * (w.length + 2) / 6) →
    f4Scalar s w = f4Merge s q w.length
    ∧ f4Merge s q w.length =
      { a := s.a + q.a
        b := s.b + n * s.a + q.b
        c := s.c + n * s.b + n2 * s.a + q.c
        d := s.d + n * s.c + n2 * s.b + n3 * s.a + q.d }

/-- R210: the general reduction gives the tables of R207 to R209 for K = 2, 4, 8 and is the identity for K = 1. -/
def Obligations.GeneralReductionGivesTables : Prop :=
  ∀ l : List Quad,
    (l.length = 2 → reduceAny 2 l = reduce2 l) ∧ (l.length = 4 → reduceAny 4 l = reduce4 l)
    ∧ (l.length = 8 → reduceAny 8 l = reduce8 l) ∧ ∀ q, reduceAny 1 [q] = q

/-- R211: every K-lane kernel leaves the sums the scalar kernel leaves, for every run of whole strides. -/
def Obligations.LaneKernelsMatchScalar : Prop :=
  ∀ (k : Lanes) (s : Quad) (w : List Word), w.length % laneCount k = 0 → f4AbsorbK k s w = f4Scalar s w

/-- R218: on a message whose 4-byte words are all palindromic the byte order makes no difference. -/
def Obligations.PalindromicWordsIgnoreByteOrder : Prop :=
  ∀ m : List Byte,
    (∀ i, 4 * i + 3 < m.length → m[4 * i]? = m[4 * i + 3]? ∧ m[4 * i + 1]? = m[4 * i + 2]?) →
    wordsOf .little m = wordsOf .big m

/-- R200, R201, R216, R219: a whole message through INIT, any UPDATEs and FINALIZE, in either byte order and on whatever
kernel INIT selects: the response is the digest of the definition when the message is whole words, and INVALID_LENGTH
when it is not. -/
def Obligations.FletcherDigestOfMessage : Prop :=
  ∀ (s : State) (c : BitVec 4) (req : ImplReq) (i : Instr) (bo : ByteOrder) (us : List (BitVec 20 × List Word)),
    c.toNat < s.numContexts →
    ((i = .initF4Le c req ∧ bo = .little) ∨ (i = .initF4Be c req ∧ bo = .big)) →
    (∀ u ∈ us, u.2.length = payloadLen u.1) →
    ∃ t u, execAll (i :: updatesOf c us) s = some t ∧ exec (.finalize c) t = .next u
      ∧ u.respPort = t.respPort ++
          (if (bytesOf us).length % 4 = 0 then 0x00038000#32 :: (fletcherDigest (wordsOf bo (bytesOf us))).words
           else [0x00030001#32])

/-! ### SHA-256 compression core (spec/41_sha256.md) -/

/-- R8, R250: ROTR_n is the right rotation of a word; Ch takes each bit from y where x has 1 and from z where x has 0;
Maj is the majority of the three bits. -/
def Obligations.WordFunctionsBitByBit : Prop :=
  ∀ (n : Nat) (x y z : Word) (i : Nat), 0 < n → n < 32 → i < 32 →
    (rotr n x).getLsbD i = x.getLsbD ((i + n) % 32)
    ∧ (ch x y z).getLsbD i = (if x.getLsbD i then y.getLsbD i else z.getLsbD i)
    ∧ (maj x y z).getLsbD i
      = decide (2 ≤ (x.getLsbD i).toNat + (y.getLsbD i).toNat + (z.getLsbD i).toNat)

/-- R255, R256: the schedule of a 64-byte block is sixteen big-endian words and then the recurrence, 64 words. -/
def Obligations.ScheduleRecurrence : Prop :=
  ∀ b : List Byte, b.length = 64 →
    (schedule b).length = 64
    ∧ (∀ t, t < 16 → (schedule b)[t]?
        = some (b.getD (4 * t) 0 ++ b.getD (4 * t + 1) 0 ++ b.getD (4 * t + 2) 0 ++ b.getD (4 * t + 3) 0))
    ∧ ∀ t, 16 ≤ t → t < 64 → (schedule b)[t]?
        = some (smallSigma1 ((schedule b).getD (t - 2) 0) + (schedule b).getD (t - 7) 0
            + smallSigma0 ((schedule b).getD (t - 15) 0) + (schedule b).getD (t - 16) 0)

/-- R260, example, T-SHA-02, T-SHA-12: the compression of the padded "abc" block and of an all-zero block. -/
def Obligations.CompressedBlockVectors : Prop :=
  (shaCompress initialHash (shaPadded [0x61#8, 0x62#8, 0x63#8] 24#64)).words
    = [0xba7816bf#32, 0x8f01cfea#32, 0x414140de#32, 0x5dae2223#32, 0xb00361a3#32, 0x96177a9c#32, 0xb410ff61#32,
       0xf20015ad#32]
  ∧ (shaCompress initialHash (List.replicate 64 0x00#8)).words
    = [0xda5698be#32, 0x17b9b469#32, 0x62335799#32, 0x779fbeca#32, 0x8ce5d491#32, 0xc0d26243#32, 0xbafef9ea#32,
       0x1837a9d8#32]

/-- R268: a SHA-256 context finalised with no bytes returns the digest of the empty message. -/
def Obligations.EmptyShaDigest : Prop :=
  ∀ (s : State) (c : BitVec 4) (req : ImplReq), c.toNat < s.numContexts →
    ∃ t u, exec (.initSha256 c req) s = .next t ∧ exec (.finalize c) t = .next u
      ∧ u.respPort = t.respPort ++
          [0x00038000#32, 0xe3b0c442#32, 0x98fc1c14#32, 0x9afbf4c8#32, 0x996fb924#32, 0x27ae41e4#32, 0x649b934c#32,
           0xa495991b#32, 0x7852b855#32]

/-- R42, R262, R264: a whole message through INIT, any UPDATEs and FINALIZE, on whatever kernel INIT selects: the
response is the digest of the padded message, its blocks compressed in order from H^(0). -/
def Obligations.ShaDigestOfMessage : Prop :=
  ∀ (s : State) (c : BitVec 4) (req : ImplReq) (us : List (BitVec 20 × List Word)),
    c.toNat < s.numContexts → (∀ u ∈ us, u.2.length = payloadLen u.1) →
    ∃ t u, execAll (.initSha256 c req :: updatesOf c us) s = some t ∧ exec (.finalize c) t = .next u
      ∧ u.respPort = t.respPort ++ 0x00038000#32 :: (shaDigest (bytesOf us)).words

/-! ### Whole machine -/

/-- R127, R333: the pseudo-instruction HASH, on a message of any length: its expansion is well-formed commands, all of
them run, and the last response is the digest of the message. -/
def Obligations.HashOfAnyMessage : Prop :=
  ∀ (s : State) (c : BitVec 4) (req : ImplReq) (m : List Byte) (i : Instr) (digest : List Word),
    c.toNat < s.numContexts →
    ((i = .initSha256 c req ∧ digest = 0x00038000#32 :: (shaDigest m).words)
      ∨ ((i = .initF4Le c req ∨ i = .initF4Be c req) ∧ m.length % 4 ≠ 0 ∧ digest = [0x00030001#32])
      ∨ ∃ bo, ((i = .initF4Le c req ∧ bo = .little) ∨ (i = .initF4Be c req ∧ bo = .big)) ∧ m.length % 4 = 0
          ∧ digest = 0x00038000#32 :: (fletcherDigest (wordsOf bo m)).words) →
    (∀ j ∈ hashAll i c m, j.wf = true)
    ∧ ∃ t pre, execAll (hashAll i c m) s = some t ∧ pre.length = 2 + (updateAll c m).length
      ∧ t.respPort = s.respPort ++ pre ++ digest

/-- R311, R339: two messages with the same bytes, on contexts bound by the same kind of INIT, whatever kernels the
requests, the parameters and the capabilities of the two machines select and however the bytes are split, get the same
FINALIZE response. -/
def Obligations.DigestIndependentOfKernel : Prop :=
  ∀ (mk : BitVec 4 → ImplReq → Instr) (s s' : State) (c c' : BitVec 4) (req req' : ImplReq)
    (us us' : List (BitVec 20 × List Word)),
    mk ∈ [Instr.initF4Le, Instr.initF4Be, Instr.initSha256] →
    c.toNat < s.numContexts → c'.toNat < s'.numContexts →
    (∀ u ∈ us ++ us', u.2.length = payloadLen u.1) → bytesOf us = bytesOf us' →
    ∃ t u t' u' r,
      execAll (mk c req :: updatesOf c us) s = some t ∧ exec (.finalize c) t = .next u
      ∧ execAll (mk c' req' :: updatesOf c' us') s' = some t' ∧ exec (.finalize c') t' = .next u'
      ∧ u.respPort = t.respPort ++ r ∧ u'.respPort = t'.respPort ++ r

/-- The invariant of Safety.lean holds after reset. -/
def Obligations.InvAtReset : Prop := State.reset.Inv

/-- R39, R35, R34, R46, R53, R468: the invariant of Safety.lean is kept by every step, of the CORE and of the outside
world, from every state that meets it. -/
def Obligations.StepKeepsInv : Prop :=
  ∀ s t : State, s.Inv → step s = .next t → t.Inv

/-- R42, R216: in every state that meets the invariant, every step keeps BUFLEN equal to what COUNT leaves after whole
strides. -/
def Obligations.StepKeepsCount : Prop :=
  ∀ s t : State, s.Inv → (∀ x ∈ s.ctxs, CountOk s.cfg x) → step s = .next t → ∀ x ∈ t.ctxs, CountOk t.cfg x
end

