-- ==== Sys2Proof/Laws/Encoding.lean ====
section
/-! SUPPORT. The bits and fields of the header words the encoder writes, and the codes of requests. -/

namespace Sys2Proof

variable (operand : BitVec 20) (ctx : BitVec 4) (op : Byte) (alg bo : BitVec 1) (req : ImplReq)

/-! ### Formats N, U, C -/

/-- Every bit of a header of formats N, U and C (R112, R114, R115). -/
theorem getLsbD_encodePlain (i : Nat) : (encodePlain operand ctx op).getLsbD i
    = if i < 8 then op.getLsbD i else if i - 8 < 4 then ctx.getLsbD (i - 8) else operand.getLsbD (i - 8 - 4) := by
  refine (BitVec.getLsbD_append (x := operand ++ ctx) (y := op)).trans ?_
  rw [BitVec.getLsbD_append]

@[simp] theorem hdrOp_encodePlain : hdrOp (encodePlain operand ctx op) = op := by
  refine BitVec.eq_of_getLsbD_eq fun i hi => ?_
  simp [hdrOp, getLsbD_encodePlain, hi]

@[simp] theorem hdrCtx_encodePlain : hdrCtx (encodePlain operand ctx op) = ctx := by
  refine BitVec.eq_of_getLsbD_eq fun i hi => ?_
  simp [hdrCtx, getLsbD_encodePlain, hi]

@[simp] theorem hdrOperand_encodePlain : hdrOperand (encodePlain operand ctx op) = operand := by
  refine BitVec.eq_of_getLsbD_eq fun i hi => ?_
  have h1 : ¬ 12 + i < 8 := by omega
  have h2 : ¬ 12 + i - 8 < 4 := by omega
  have h3 : 12 + i - 8 - 4 = i := by omega
  simp [hdrOperand, getLsbD_encodePlain, hi, h1, h2, h3]

/-! ### Format I -/

/-- Every bit of an INIT header (R113). -/
theorem getLsbD_encodeInit (i : Nat) : (encodeInit alg bo ctx req).getLsbD i
    = if i < 8 then opInit.getLsbD i else if i - 8 < 4 then ctx.getLsbD (i - 8)
      else if i - 12 < 1 then alg.getLsbD (i - 12) else if i - 13 < 1 then bo.getLsbD (i - 13)
      else if i - 14 < 4 then req.code.getLsbD (i - 14) else false := by
  refine (BitVec.getLsbD_append (x := 0#14 ++ req.code ++ bo ++ alg ++ ctx) (y := opInit)).trans ?_
  rw [BitVec.getLsbD_append, BitVec.getLsbD_append, BitVec.getLsbD_append, BitVec.getLsbD_append]
  simp [Nat.sub_sub]

@[simp] theorem hdrOp_encodeInit : hdrOp (encodeInit alg bo ctx req) = opInit := by
  refine BitVec.eq_of_getLsbD_eq fun i hi => ?_
  simp [hdrOp, getLsbD_encodeInit, hi]

@[simp] theorem hdrCtx_encodeInit : hdrCtx (encodeInit alg bo ctx req) = ctx := by
  refine BitVec.eq_of_getLsbD_eq fun i hi => ?_
  simp [hdrCtx, getLsbD_encodeInit, hi]

@[simp] theorem hdrAlg_encodeInit : hdrAlg (encodeInit alg bo ctx req) = alg := by
  refine BitVec.eq_of_getLsbD_eq fun i hi => ?_
  obtain rfl : i = 0 := by omega
  rw [hdrAlg, BitVec.getLsbD_extractLsb', getLsbD_encodeInit]
  simp

@[simp] theorem hdrBo_encodeInit : hdrBo (encodeInit alg bo ctx req) = bo := by
  refine BitVec.eq_of_getLsbD_eq fun i hi => ?_
  obtain rfl : i = 0 := by omega
  rw [hdrBo, BitVec.getLsbD_extractLsb', getLsbD_encodeInit]
  simp

@[simp] theorem hdrImpl_encodeInit : hdrImpl (encodeInit alg bo ctx req) = req.code := by
  refine BitVec.eq_of_getLsbD_eq fun i hi => ?_
  have h1 : ¬ 14 + i < 8 := by omega
  have h2 : ¬ 14 + i - 8 < 4 := by omega
  have h3 : ¬ 14 + i - 12 < 1 := by omega
  have h4 : ¬ 14 + i - 13 < 1 := by omega
  simp [hdrImpl, getLsbD_encodeInit, hi, h1, h2, h3, h4]

@[simp] theorem hdrReservedI_encodeInit : hdrReservedI (encodeInit alg bo ctx req) = 0 := by
  refine BitVec.eq_of_getLsbD_eq fun i hi => ?_
  have h1 : ¬ 18 + i < 8 := by omega
  have h2 : ¬ 18 + i - 8 < 4 := by omega
  have h3 : ¬ 18 + i - 12 < 1 := by omega
  have h4 : ¬ 18 + i - 13 < 1 := by omega
  have h5 : ¬ 18 + i - 14 < 4 := by omega
  simp [hdrReservedI, getLsbD_encodeInit, h1, h2, h3, h4, h5]

/-! ### Requests -/

/-- R117: every request has a code of its own. -/
@[simp] theorem ofCode_code : ImplReq.ofCode req.code = req := by
  cases req with
  | auto => rfl
  | named k => cases k <;> rfl
  | unknown low => revert low; decide

/-- R117: every 4-bit code is a request's. -/
@[simp] theorem code_ofCode (c : BitVec 4) : (ImplReq.ofCode c).code = c := by revert c; decide

/-! ### Lengths -/

@[simp] theorem payloadWords_encodePlain : payloadWords (encodePlain operand ctx op)
    = if op = opUpdate then payloadLen operand else 0 := by simp [payloadWords]

@[simp] theorem payloadWords_encodeInit : payloadWords (encodeInit alg bo ctx req) = 0 := by
  rw [payloadWords, hdrOp_encodeInit, if_neg (by decide)]

end Sys2Proof
end

