-- ==== Sys2Proof/Laws/Lists.lean ====
section
/-! SUPPORT. The byte and word lists: lengths, and how they split where a run splits. -/

namespace Sys2Proof.Machine

@[simp] theorem wordBytes_length (w : Word) : (wordBytes w).length = 4 := rfl

@[simp] theorem flatMap_wordBytes_length (p : List Word) : (p.flatMap wordBytes).length = 4 * p.length := by
  induction p with
  | nil => rfl
  | cons w p ih => simp [ih]; omega

/-- R83: a payload of n bytes has n bytes where its words hold that many. -/
theorem payloadBytes_length {n : Nat} {p : List Word} (h : n ≤ 4 * p.length) : (payloadBytes n p).length = n := by
  rw [payloadBytes, List.length_take, flatMap_wordBytes_length, Nat.min_eq_left h]

/-- A word boundary of a byte sequence is a word boundary of its words. -/
theorem wordsOf_append (bo : ByteOrder) (ys : List Byte) : ∀ (n : Nat) (xs : List Byte), xs.length = 4 * n →
    wordsOf bo (xs ++ ys) = wordsOf bo xs ++ wordsOf bo ys
  | 0, xs, h => by
    obtain rfl : xs = [] := List.length_eq_zero_iff.1 (by omega)
    rfl
  | n + 1, xs, h => by
    match xs, h with
    | b0 :: b1 :: b2 :: b3 :: rest, h =>
      have hr : rest.length = 4 * n := by simp at h; omega
      simp [wordsOf, wordsOf_append bo ys n rest hr]

theorem wordsOf_length (bo : ByteOrder) : ∀ (n : Nat) (xs : List Byte), xs.length / 4 = n → (wordsOf bo xs).length = n
  | 0, xs, h => by
    match xs, h with
    | [], _ => rfl
    | [_], _ => rfl
    | [_, _], _ => rfl
    | [_, _, _], _ => rfl
    | _ :: _ :: _ :: _ :: _, h => simp at h; omega
  | n + 1, xs, h => by
    match xs, h with
    | [], h => simp at h
    | [_], h => simp at h
    | [_, _], h => simp at h
    | [_, _, _], h => simp at h
    | _ :: _ :: _ :: _ :: rest, h =>
      simp [wordsOf, wordsOf_length bo n rest (by simp at h; omega)]

variable {α : Type} (size : Nat)

@[simp] theorem pieces_length (q : Nat) (xs : List α) : (pieces size q xs).length = q := by
  induction q generalizing xs with
  | zero => rfl
  | succ q ih => simp [pieces, ih]

/-- The pieces of a run of whole pieces followed by more are its own pieces and then the others. -/
theorem pieces_append (r : Nat) (ys : List α) : ∀ (q : Nat) (xs : List α), xs.length = size * q →
    pieces size (q + r) (xs ++ ys) = pieces size q xs ++ pieces size r ys
  | 0, xs, h => by
    obtain rfl : xs = [] := List.length_eq_zero_iff.1 (by simpa using h)
    simp [pieces]
  | q + 1, xs, h => by
    have hs : size ≤ xs.length := by rw [h, Nat.mul_succ]; omega
    have hd : (xs.drop size).length = size * q := by simp [h, Nat.mul_succ]
    rw [show q + 1 + r = (q + r) + 1 by omega]
    simp [pieces, List.take_append_of_le_length hs, List.drop_append_of_le_length hs, pieces_append r ys q _ hd]

/-- The pieces only look at the elements they hold. -/
theorem pieces_take (q : Nat) (xs : List α) : pieces size q (xs.take (size * q)) = pieces size q xs := by
  induction q generalizing xs with
  | zero => rfl
  | succ q ih =>
    have h1 : min size (size * (q + 1)) = size := by rw [Nat.mul_succ]; omega
    have h2 : size * (q + 1) - size = size * q := by rw [Nat.mul_succ]; omega
    simp [pieces, List.take_take, List.drop_take, h1, h2, ih]

end Sys2Proof.Machine
end

