-- ==== Sys2Proof/Laws/Fletcher4.lean ====
section
/-! SUPPORT. The Fletcher4 engine, one word or one stride at a time: what the scalar step does to a merge and to each
reduction. -/

namespace Sys2Proof.Machine

/-- A coefficient is a cast of its exact integer into the ring of sums (R217). -/
theorem ofNat_eq_cast (k : Nat) : BitVec.ofNat 64 k = (k : BitVec 64) := rfl

@[simp] theorem f4Scalar_nil (s : Quad) : f4Scalar s [] = s := rfl

@[simp] theorem f4Scalar_cons (s : Quad) (f : Word) (w : List Word) : f4Scalar s (f :: w) = f4Scalar (f4Step s f) w := rfl

/-- R203: a run in two parts. -/
theorem f4Scalar_append (s : Quad) (v w : List Word) : f4Scalar s (v ++ w) = f4Scalar (f4Scalar s v) w := by
  simp [f4Scalar]

/-- The triangular and tetrahedral weights grow as the scalar step makes them grow. -/
theorem triangular_succ (n : Nat) : (n + 1) * (n + 2) / 2 = n * (n + 1) / 2 + (n + 1) := by
  rw [show (n + 1) * (n + 2) = n * (n + 1) + (n + 1) * 2 by ring, Nat.add_mul_div_right _ _ (by decide)]

theorem tetrahedral_succ (n : Nat) :
    (n + 1) * (n + 2) * (n + 3) / 6 = n * (n + 1) * (n + 2) / 6 + (n + 1) * (n + 2) / 2 := by
  have h2 : 2 ∣ (n + 1) * (n + 2) := by
    simpa [mul_comm] using (Nat.even_mul_succ_self (n + 1)).two_dvd
  obtain ⟨k, hk⟩ := h2
  rw [show (n + 1) * (n + 2) * (n + 3) = n * (n + 1) * (n + 2) + 3 * ((n + 1) * (n + 2)) by ring, hk,
    show 3 * (2 * k) = k * 6 by ring, Nat.add_mul_div_right _ _ (by decide), Nat.mul_div_cancel_left k (by decide)]

/-- One more word after a merge is a merge of one word more. -/
theorem f4Step_merge (s q : Quad) (n : Nat) (f : Word) : f4Step (f4Merge s q n) f = f4Merge s (f4Step q f) (n + 1) := by
  simp only [f4Step, f4Merge, triangular_succ, tetrahedral_succ, ofNat_eq_cast, Nat.cast_add, Nat.cast_one,
    Quad.mk.injEq]
  refine ⟨by ring, by ring, by ring, by ring⟩

/-- One word more in each of two lanes is two scalar steps more of the reduction (R207). -/
theorem reduce2_step (l1 l2 : Quad) (x1 x2 : Word) :
    reduce2 [f4Step l1 x1, f4Step l2 x2] = f4Scalar (reduce2 [l1, l2]) [x1, x2] := by
  simp only [reduce2, f4Scalar, f4Step, List.foldl, List.map, dot, ofNat_eq_cast, Nat.cast_ofNat, Nat.cast_one,
    Nat.cast_zero, Quad.mk.injEq]
  refine ⟨by ring, by ring, by ring, by ring⟩

/-- One word more in each of four lanes is four scalar steps more of the reduction (R208). -/
theorem reduce4_step (l1 l2 l3 l4 : Quad) (x1 x2 x3 x4 : Word) :
    reduce4 [f4Step l1 x1, f4Step l2 x2, f4Step l3 x3, f4Step l4 x4]
      = f4Scalar (reduce4 [l1, l2, l3, l4]) [x1, x2, x3, x4] := by
  simp only [reduce4, f4Scalar, f4Step, List.foldl, List.map, dot, ofNat_eq_cast, Nat.cast_ofNat, Nat.cast_one,
    Nat.cast_zero, Quad.mk.injEq]
  refine ⟨by ring, by ring, by ring, by ring⟩

/-- One word more in each of eight lanes is eight scalar steps more of the reduction (R209). -/
theorem reduce8_step (l1 l2 l3 l4 l5 l6 l7 l8 : Quad) (x1 x2 x3 x4 x5 x6 x7 x8 : Word) :
    reduce8 [f4Step l1 x1, f4Step l2 x2, f4Step l3 x3, f4Step l4 x4, f4Step l5 x5, f4Step l6 x6, f4Step l7 x7,
        f4Step l8 x8]
      = f4Scalar (reduce8 [l1, l2, l3, l4, l5, l6, l7, l8]) [x1, x2, x3, x4, x5, x6, x7, x8] := by
  simp only [reduce8, f4Scalar, f4Step, List.foldl, List.map, dot, ofNat_eq_cast, Nat.cast_ofNat, Nat.cast_one,
    Nat.cast_zero, Quad.mk.injEq]
  refine ⟨by ring, by ring, by ring, by ring⟩

/-- R205: one stride more gives lane `j` its word `j`. -/
theorem laneWords_append {k j : Nat} {w xs : List Word} (hk : 0 < k) (hw : w.length % k = 0) (hx : xs.length = k) :
    laneWords k j (w ++ xs) = laneWords k j w ++ [xs.getD j 0] := by
  have hq : w.length = k * (w.length / k) := (Nat.mul_div_cancel' (Nat.dvd_of_mod_eq_zero hw)).symm
  have hlen : (w ++ xs).length / k = w.length / k + 1 := by
    rw [List.length_append, hx, Nat.add_div_right _ hk]
  rw [laneWords, hlen, pieces_append k 1 xs _ w hq]
  simp [laneWords, pieces, ← hx]

end Sys2Proof.Machine
end

