-- ==== Sys2Proof/Laws/State.lean ====
section
/-! SUPPORT. What each update of the state leaves in each field, so that no proof unfolds a record update. -/

namespace Sys2Proof.Machine

variable (s : State) (c : BitVec 4) (x : Context) (code : Code) (warn : Bool) (op : Byte) (p : List Word)

/-! ### setCtx -/

@[simp] theorem setCtx_ctxs : (s.setCtx c x).ctxs = s.ctxs.set c.toNat x := rfl
@[simp] theorem setCtx_capsValid : (s.setCtx c x).capsValid = s.capsValid := rfl
@[simp] theorem setCtx_capsCache : (s.setCtx c x).capsCache = s.capsCache := rfl
@[simp] theorem setCtx_framing : (s.setCtx c x).framing = s.framing := rfl
@[simp] theorem setCtx_respPort : (s.setCtx c x).respPort = s.respPort := rfl
@[simp] theorem setCtx_cmdPort : (s.setCtx c x).cmdPort = s.cmdPort := rfl
@[simp] theorem setCtx_capsIn : (s.setCtx c x).capsIn = s.capsIn := rfl
@[simp] theorem setCtx_cfg : (s.setCtx c x).cfg = s.cfg := rfl
@[simp] theorem setCtx_turns : (s.setCtx c x).turns = s.turns := rfl
@[simp] theorem setCtx_hostGot : (s.setCtx c x).hostGot = s.hostGot := rfl
@[simp] theorem setCtx_numContexts : (s.setCtx c x).numContexts = s.numContexts := by simp [State.numContexts]

/-! ### respond -/

@[simp] theorem respond_ctxs : (respond code warn op p s).ctxs = s.ctxs := rfl
@[simp] theorem respond_capsValid : (respond code warn op p s).capsValid = s.capsValid := rfl
@[simp] theorem respond_capsCache : (respond code warn op p s).capsCache = s.capsCache := rfl
@[simp] theorem respond_framing : (respond code warn op p s).framing = s.framing := rfl
@[simp] theorem respond_respPort :
    (respond code warn op p s).respPort = s.respPort ++ rspWord code warn op p.length :: p := rfl
@[simp] theorem respond_cmdPort : (respond code warn op p s).cmdPort = s.cmdPort := rfl
@[simp] theorem respond_capsIn : (respond code warn op p s).capsIn = s.capsIn := rfl
@[simp] theorem respond_cfg : (respond code warn op p s).cfg = s.cfg := rfl
@[simp] theorem respond_turns : (respond code warn op p s).turns = s.turns := rfl
@[simp] theorem respond_hostGot : (respond code warn op p s).hostGot = s.hostGot := rfl
@[simp] theorem respond_numContexts : (respond code warn op p s).numContexts = s.numContexts := rfl

/-! ### sampleCaps -/

/-- What the first sample leaves, and every later one (R301). -/
theorem sampleCaps_eq : sampleCaps s
    = { s with capsValid := true, capsCache := if s.capsValid then s.capsCache else s.capsIn } := by
  cases h : s.capsValid <;> simp [sampleCaps, h]
  rw [← h]

@[simp] theorem sampleCaps_capsValid : (sampleCaps s).capsValid = true := by simp [sampleCaps_eq]
@[simp] theorem sampleCaps_capsCache :
    (sampleCaps s).capsCache = if s.capsValid then s.capsCache else s.capsIn := by simp [sampleCaps_eq]
@[simp] theorem sampleCaps_ctxs : (sampleCaps s).ctxs = s.ctxs := by simp [sampleCaps_eq]
@[simp] theorem sampleCaps_framing : (sampleCaps s).framing = s.framing := by simp [sampleCaps_eq]
@[simp] theorem sampleCaps_respPort : (sampleCaps s).respPort = s.respPort := by simp [sampleCaps_eq]
@[simp] theorem sampleCaps_cmdPort : (sampleCaps s).cmdPort = s.cmdPort := by simp [sampleCaps_eq]
@[simp] theorem sampleCaps_capsIn : (sampleCaps s).capsIn = s.capsIn := by simp [sampleCaps_eq]
@[simp] theorem sampleCaps_cfg : (sampleCaps s).cfg = s.cfg := by simp [sampleCaps_eq]
@[simp] theorem sampleCaps_turns : (sampleCaps s).turns = s.turns := by simp [sampleCaps_eq]
@[simp] theorem sampleCaps_hostGot : (sampleCaps s).hostGot = s.hostGot := by simp [sampleCaps_eq]

/-! ### Reading contexts -/

/-- R31: a context in range is there, and only such a one. -/
theorem ctx?_some_iff : (∃ x, s.ctx? c = some x) ↔ c.toNat < s.numContexts := by
  rw [← Option.isSome_iff_exists, State.ctx?, isSome_getElem?, State.numContexts]

theorem ctx?_none_iff : s.ctx? c = none ↔ s.numContexts ≤ c.toNat := by
  simp [State.ctx?, State.numContexts]

@[simp] theorem respond_ctx? : (respond code warn op p s).ctx? c = s.ctx? c := rfl
@[simp] theorem sampleCaps_ctx? : (sampleCaps s).ctx? c = s.ctx? c := by simp [State.ctx?]

/-- Reading the context just written. -/
theorem setCtx_ctx?_same {y : Context} (h : s.ctx? c = some y) : (s.setCtx c x).ctx? c = some x := by
  simp only [State.ctx?, setCtx_ctxs] at *
  have hlt : c.toNat < s.ctxs.length := by
    by_contra hge
    simp [List.getElem?_eq_none (Nat.le_of_not_lt hge)] at h
  simp [hlt]

/-- Writing a context leaves every other context alone (R31). -/
theorem setCtx_ctx?_other {d : BitVec 4} (h : c ≠ d) : (s.setCtx c x).ctx? d = s.ctx? d := by
  have hne : c.toNat ≠ d.toNat := fun e => h (BitVec.eq_of_toNat_eq e)
  simp [State.ctx?, hne]

/-- A context that is read stands in the array. -/
theorem ctx?_mem {s : State} {c : BitVec 4} {x : Context} (h : s.ctx? c = some x) : x ∈ s.ctxs :=
  List.mem_of_getElem? h

/-! ### Ports and reset -/

@[simp] theorem resetCore_cfg : (resetCore s).cfg = s.cfg := rfl
@[simp] theorem resetCore_numContexts : (resetCore s).numContexts = s.numContexts := by
  simp [resetCore, State.numContexts]

/-- R53: every context of the CORE after reset. -/
theorem resetCore_ctxs_mem {y : Context} (h : y ∈ (resetCore s).ctxs) : y = Context.reset :=
  List.eq_of_mem_replicate h

/-- What a read changes: the two lists the response words pass through. -/
theorem hostRead_eq : hostRead s
    = { s with respPort := s.respPort.tail, hostGot := s.hostGot ++ s.respPort.head?.toList } := by
  cases s with
  | mk a b c d port e f g h i => cases port <;> simp [hostRead]

end Sys2Proof.Machine
end

