-- ==== Sys2Proof/Laws/Ops.lean ====
section
/-! SUPPORT. Everything the shared operations and the meanings can do, said once: later proofs cite these and do not
unfold a meaning again. -/

namespace Sys2Proof.Machine

variable {s t : State}

/-- A command on a context number: BAD_CONTEXT, or its body on the context (R406). -/
theorem onContext_some {op : Byte} {c : BitVec 4} {x : Context} {body : Context → Result} (h : s.ctx? c = some x) :
    onContext op c s body = body x := by simp [onContext, h]

theorem onContext_none {op : Byte} {c : BitVec 4} {body : Context → Result} (h : s.ctx? c = none) :
    onContext op c s body = raise .badContext op s := by simp [onContext, h]

/-- UPDATE and FINALIZE go on exactly on a Fresh or Absorbing context (R402, R407). -/
theorem onLive_live {op : Byte} {x : Context} {body : Result} (h : x.life = .fresh ∨ x.life = .absorbing) :
    onLive op x s body = body := by
  rcases h with h | h <;> simp [onLive, h]

theorem onLive_unbound {op : Byte} {x : Context} {body : Result} (h : x.life = .unbound) :
    onLive op x s body = raise .notInitialised op s := by simp [onLive, h]

theorem onLive_finalised {op : Byte} {x : Context} {body : Result} (h : x.life = .finalised) :
    onLive op x s body = raise .alreadyFinalised op s := by simp [onLive, h]

/-- The FINALIZE of a Fresh or Absorbing context: the three ends of R334. -/
theorem execFinalize_live {c : BitVec 4} {x : Context} (hx : s.ctx? c = some x)
    (hl : x.life = .fresh ∨ x.life = .absorbing) :
    execFinalize c s = match x.alg with
      | .fletcher4 =>
        if x.buf.length % 4 = 0 then
          .next (respond .ok false opFinalize (f4Finish x.f4 x.bo x.buf).words
            (s.setCtx c { consume x with f4 := f4Finish x.f4 x.bo x.buf }))
        else raise .invalidLength opFinalize (s.setCtx c (consume x))
      | .sha256 =>
        .next (respond .ok false opFinalize (shaFinish x.h x.buf x.count).words
          (s.setCtx c { consume x with h := shaFinish x.h x.buf x.count })) := by
  exact (onContext_some hx).trans (onLive_live hl)

/-- The ways a command can end, with all that it writes: an error that changes nothing (R409); a read-only answer
(STATUS, CAPS after its sample); a context written and an answer (INIT after its sample, UPDATE, FINALIZE). Each answer
has at most 8 payload words. -/
theorem exec_cases (i : Instr) (s : State) :
    (∃ code, code ≠ .ok ∧ code ≠ .invalidLength ∧ exec i s = .next (respond code false i.op [] s))
    ∨ (∃ c x, i = .status c ∧ s.ctx? c = some x
        ∧ exec i s = .next (respond .ok false i.op [ctxStat s.cfg x, lowWord x.count, highWord x.count] s))
    ∨ (i = .caps ∧ exec i s = .next (respond .ok false i.op
        [capsWord (sampleCaps s), validWord (sampleCaps s), availWord (sampleCaps s)] (sampleCaps s)))
    ∨ (∃ alg bo c req x, (i = .initF4Le c req ∧ alg = .fletcher4 ∧ bo = .little
          ∨ i = .initF4Be c req ∧ alg = .fletcher4 ∧ bo = .big
          ∨ i = .initSha256 c req ∧ alg = .sha256 ∧ bo = .little)
        ∧ s.ctx? c = some x ∧ exec i s = .next (bind alg bo c req s))
    ∨ (∃ c n p x, i = .update c n p ∧ s.ctx? c = some x ∧ (x.life = .fresh ∨ x.life = .absorbing)
        ∧ exec i s = .next (respond .ok false i.op []
            (s.setCtx c (updateContext s.cfg x (payloadBytes n.toNat p)))))
    ∨ (∃ c x, i = .finalize c ∧ s.ctx? c = some x ∧ (x.life = .fresh ∨ x.life = .absorbing)
        ∧ ((x.alg = .fletcher4 ∧ x.buf.length % 4 = 0 ∧ exec i s = .next (respond .ok false i.op
              (f4Finish x.f4 x.bo x.buf).words (s.setCtx c { consume x with f4 := f4Finish x.f4 x.bo x.buf })))
          ∨ (x.alg = .fletcher4 ∧ x.buf.length % 4 ≠ 0 ∧ exec i s = .next (respond .invalidLength false i.op []
              (s.setCtx c (consume x))))
          ∨ (x.alg = .sha256 ∧ exec i s = .next (respond .ok false i.op
              (shaFinish x.h x.buf x.count).words (s.setCtx c { consume x with h := shaFinish x.h x.buf x.count }))))) := by
  have live : ∀ x : Context, x.life = .unbound ∨ x.life = .finalised ∨ (x.life = .fresh ∨ x.life = .absorbing) := by
    intro x; cases x.life <;> simp
  cases i with
  | initF4Le c req =>
    rcases hx : s.ctx? c with _ | x
    · exact .inl ⟨.badContext, by simp, by simp, onContext_none hx⟩
    · exact .inr (.inr (.inr (.inl ⟨_, _, c, req, x, .inl ⟨rfl, rfl, rfl⟩, hx, onContext_some hx⟩)))
  | initF4Be c req =>
    rcases hx : s.ctx? c with _ | x
    · exact .inl ⟨.badContext, by simp, by simp, onContext_none hx⟩
    · exact .inr (.inr (.inr (.inl ⟨_, _, c, req, x, .inr (.inl ⟨rfl, rfl, rfl⟩), hx, onContext_some hx⟩)))
  | initSha256 c req =>
    rcases hx : s.ctx? c with _ | x
    · exact .inl ⟨.badContext, by simp, by simp, onContext_none hx⟩
    · exact .inr (.inr (.inr (.inl ⟨_, _, c, req, x, .inr (.inr ⟨rfl, rfl, rfl⟩), hx, onContext_some hx⟩)))
  | update c n p =>
    rcases hx : s.ctx? c with _ | x
    · exact .inl ⟨.badContext, by simp, by simp, onContext_none hx⟩
    rcases live x with hl | hl | hl
    · exact .inl ⟨.notInitialised, by simp, by simp, (onContext_some hx).trans (onLive_unbound hl)⟩
    · exact .inl ⟨.alreadyFinalised, by simp, by simp, (onContext_some hx).trans (onLive_finalised hl)⟩
    · exact .inr (.inr (.inr (.inr (.inl ⟨c, n, p, x, rfl, hx, hl, (onContext_some hx).trans (onLive_live hl)⟩))))
  | finalize c =>
    rcases hx : s.ctx? c with _ | x
    · exact .inl ⟨.badContext, by simp, by simp, onContext_none hx⟩
    rcases live x with hl | hl | hl
    · exact .inl ⟨.notInitialised, by simp, by simp, (onContext_some hx).trans (onLive_unbound hl)⟩
    · exact .inl ⟨.alreadyFinalised, by simp, by simp, (onContext_some hx).trans (onLive_finalised hl)⟩
    refine .inr (.inr (.inr (.inr (.inr ⟨c, x, rfl, hx, hl, ?_⟩))))
    have h := execFinalize_live hx hl
    cases ha : x.alg <;> simp only [ha] at h
    · by_cases hb : x.buf.length % 4 = 0
      · exact .inl ⟨rfl, hb, h.trans (if_pos hb)⟩
      · exact .inr (.inl ⟨rfl, hb, h.trans (if_neg hb)⟩)
    · exact .inr (.inr ⟨rfl, h⟩)
  | status c =>
    rcases hx : s.ctx? c with _ | x
    · exact .inl ⟨.badContext, by simp, by simp, onContext_none hx⟩
    · exact .inr (.inl ⟨c, x, rfl, hx, onContext_some hx⟩)
  | caps => exact .inr (.inr (.inl ⟨rfl, rfl⟩))
  | illegal op => exact .inl ⟨.illegalCommand, by simp, by simp, rfl⟩

/-- R82, R121: every command answers, and its response is 1 to 9 words at the end of the port, `responseLength` of
them. -/
theorem exec_respPort (i : Instr) (s : State) :
    ∃ t r, exec i s = .next t ∧ t.respPort = s.respPort ++ r ∧ responseLength i s = r.length
      ∧ 1 ≤ r.length ∧ r.length ≤ 9 := by
  obtain ⟨t, r, h, hp, h1, h9⟩ : ∃ t r, exec i s = .next t ∧ t.respPort = s.respPort ++ r
      ∧ 1 ≤ r.length ∧ r.length ≤ 9 := by
    rcases exec_cases i s with ⟨code, -, -, h⟩ | ⟨c, x, -, -, h⟩ | ⟨-, h⟩ | ⟨alg, bo, c, req, x, -, -, h⟩
      | ⟨c, n, p, x, -, -, -, h⟩ | ⟨c, x, -, -, -, ⟨-, -, h⟩ | ⟨-, -, h⟩ | ⟨-, h⟩⟩
    all_goals refine ⟨_, _, h, by first | rfl | (simp [bind]; rfl), ?_, ?_⟩ <;> simp [Quad.words, Octet.words]
  exact ⟨t, r, h, hp, by simp [responseLength, h, hp], h1, h9⟩

/-- What the CORE's own move can do: nothing for want of a word or of room, or take the first word (R81, R468). -/
theorem takeWord_cases (s : State) :
    (takeWord s = (s, none)
      ∧ (s.cmdPort = [] ∨ ∃ w rest, s.cmdPort = w :: rest ∧ hasRoom (frameWord s.framing w).2 s = false))
    ∨ ∃ w rest, s.cmdPort = w :: rest ∧ hasRoom (frameWord s.framing w).2 s = true
        ∧ takeWord s = ({ s with framing := (frameWord s.framing w).1, cmdPort := rest }, (frameWord s.framing w).2) := by
  unfold takeWord
  cases h : s.cmdPort with
  | nil => exact .inl ⟨rfl, .inl rfl⟩
  | cons w rest =>
    cases hr : hasRoom (frameWord s.framing w).2 s
    · exact .inl ⟨by simp [hr], .inr ⟨w, rest, rfl, hr⟩⟩
    · exact .inr ⟨w, rest, rfl, hr, by simp [hr]⟩

/-- R468: a full port holds every word, since every response has a word. -/
theorem hasRoom_full (done : Option Instr) (h : s.cfg.respDepth ≤ s.respPort.length) : hasRoom done s = false := by
  cases done with
  | none => simp [hasRoom]; omega
  | some i =>
    obtain ⟨t, r, -, -, hr, h1, -⟩ := exec_respPort i s
    simp [hasRoom, hr]; omega

end Sys2Proof.Machine
end

