-- ==== Sys2Proof/Laws/PerInstr.lean ====
section
/-! SUPPORT. The families of laws about every command as syntax, one lemma per constructor. -/

namespace Sys2Proof.Laws

/-- R111, R118: the encoder writes the command's OP into its header. -/
def HeaderOp.Statement (i : Instr) : Prop := hdrOp (encodeHeader i) = i.op

namespace HeaderOp

theorem initF4Le (ctx : BitVec 4) (req : ImplReq) : Statement (.initF4Le ctx req) := hdrOp_encodeInit ..
theorem initF4Be (ctx : BitVec 4) (req : ImplReq) : Statement (.initF4Be ctx req) := hdrOp_encodeInit ..
theorem initSha256 (ctx : BitVec 4) (req : ImplReq) : Statement (.initSha256 ctx req) := hdrOp_encodeInit ..
theorem update (ctx : BitVec 4) (nbytes : BitVec 20) (payload : List Word) : Statement (.update ctx nbytes payload) :=
  hdrOp_encodePlain ..
theorem finalize (ctx : BitVec 4) : Statement (.finalize ctx) := hdrOp_encodePlain ..
theorem status (ctx : BitVec 4) : Statement (.status ctx) := hdrOp_encodePlain ..
theorem caps : Statement .caps := hdrOp_encodePlain ..
theorem illegal (op : Byte) : Statement (.illegal op) := by
  simp only [Statement, encodeHeader, encodeIllegal, Instr.op]
  split <;> exact hdrOp_encodePlain ..

end HeaderOp

/-- R110: a well-formed command carries as many payload words as its header announces. -/
def PayloadCount.Statement (i : Instr) : Prop := i.wf = true → i.payload.length = payloadWords (encodeHeader i)

namespace PayloadCount

theorem initF4Le (ctx : BitVec 4) (req : ImplReq) : Statement (.initF4Le ctx req) := fun _ =>
  (payloadWords_encodeInit ..).symm
theorem initF4Be (ctx : BitVec 4) (req : ImplReq) : Statement (.initF4Be ctx req) := fun _ =>
  (payloadWords_encodeInit ..).symm
theorem initSha256 (ctx : BitVec 4) (req : ImplReq) : Statement (.initSha256 ctx req) := fun _ =>
  (payloadWords_encodeInit ..).symm
theorem update (ctx : BitVec 4) (nbytes : BitVec 20) (payload : List Word) :
    Statement (.update ctx nbytes payload) := fun h => by
  simpa [Instr.wf, Instr.payload, encodeHeader] using h
theorem finalize (ctx : BitVec 4) : Statement (.finalize ctx) := fun _ => by
  rw [encodeHeader, payloadWords_encodePlain, if_neg (by decide)]; rfl
theorem status (ctx : BitVec 4) : Statement (.status ctx) := fun _ => by
  rw [encodeHeader, payloadWords_encodePlain, if_neg (by decide)]; rfl
theorem caps : Statement .caps := fun _ => by
  rw [encodeHeader, payloadWords_encodePlain, if_neg (by decide)]; rfl
theorem illegal (op : Byte) : Statement (.illegal op) := fun h => by
  have hop : op ≠ opUpdate := by simpa [Instr.wf] using h
  simp only [encodeHeader, encodeIllegal]
  split <;> rw [payloadWords_encodePlain, if_neg hop] <;> rfl

end PayloadCount

end Sys2Proof.Laws
end

