-- ==== Sys2Proof/Tests/Slice0.lean ====
section
/-! SUPPORT. The model's own tests: the well-formedness smoke test, words decoded from the spec's encodings, one step on
a small state per command, and a witness for the hypotheses of each statement. The expected results are the spec's:
95_test_vectors.md and the worked examples of the rules named. -/

namespace Sys2Proof.Tests

open Sys2Proof Sys2Proof.Machine

/-! ### Well-formedness: each check refuses its ill-formed term -/

theorem test_wf_payload_too_short : (Instr.update 0 5 [0x04030201#32]).wf = false := by decide
theorem test_wf_payload_too_long : (Instr.update 0 4 [0x04030201#32, 0#32]).wf = false := by decide
theorem test_wf_illegal_update : (Instr.illegal 0x02#8).wf = false := by decide
theorem test_wf_payload_right : (Instr.update 2 5 [0x04030201#32, 5#32]).wf = true := by decide

/-! ### Decoding: T-ENC-01, T-ERR-01, with the words written out bit by bit from R112 to R115 -/

/-- OPERAND [31:18] = 0, IMPL [17:14] = 6, BO [13] = 1, ALG [12] = 0, CTX [11:8] = 15, OP [7:0] = 1. -/
theorem test_decode_init_be :
    decode [0b00000000000000_0110_1_0_1111_00000001#32] = .ok (.initF4Be 15 (.named .simd512x8), []) := by decide
theorem test_decode_init_le :
    decode [0b00000000000000_0001_0_0_0001_00000001#32] = .ok (.initF4Le 1 (.named .scalar), []) := by decide
theorem test_decode_init_sha :
    decode [0b00000000000000_1111_0_1_0000_00000001#32] = .ok (.initSha256 0 (.unknown 7), []) := by decide
theorem test_decode_init_sha_big_illegal :
    decode [0b00000000000000_0000_1_1_0000_00000001#32] = .ok (.illegal 1, []) := by decide
/-- NBYTES [31:12] = 5, CTX [11:8] = 2, OP = 2, then two payload words; a third word is the next command's. -/
theorem test_decode_update :
    decode [0b00000000000000000101_0010_00000010#32, 0x04030201#32, 0x00000005#32, 0x00000005#32]
      = .ok (.update 2 5 [0x04030201#32, 0x00000005#32], [0x00000005#32]) := by decide
theorem test_decode_update_incomplete :
    decode [0x00005202#32, 0x04030201#32] = .error .payloadIncomplete := by decide
theorem test_decode_nothing : decode [] = .error .noHeader := by decide
theorem test_decode_finalize : decode [0x00000f03#32] = .ok (.finalize 15, []) := by decide
theorem test_decode_finalize_reserved : decode [0x00001003#32] = .ok (.illegal 3, []) := by decide
theorem test_decode_status : decode [0x00000304#32] = .ok (.status 3, []) := by decide
theorem test_decode_caps : decode [0x00000005#32] = .ok (.caps, []) := by decide
theorem test_decode_caps_ctx_illegal : decode [0x00000105#32] = .ok (.illegal 5, []) := by decide
theorem test_decode_illegal : decode [0x000003ff#32] = .ok (.illegal 0xff, []) := by decide
theorem test_table_word_update :
    decodeTableWord 64 0x0063626100003102 = some (.update 1 3 [0x00636261#32]) := by decide
theorem test_table_word_header_only : decodeTableWord 32 0x00003102 = some (.update 1 3 [0#32]) := by decide

/-! ### Assembler -/

/-- R126; 43_commands.md R331, R332, examples. -/
theorem test_assembly :
    assembly (.initF4Le 1 (.named .shaNative)) = "INIT c1, fletcher4, le, sha-native"
    ∧ assembly (.update 0 3 [0x00636261#32]) = "UPDATE c0, x\"616263\""
    ∧ assembly (.initSha256 15 (.unknown 1)) = "INIT c15, sha256, #9"
    ∧ assembly (.illegal 0xff) = ".word 0x000000ff" := by decide +kernel

/-- R127, R83, with the UPDATE of R332's example. -/
theorem test_hash_expansion : (hashAll (.initSha256 0 .auto) 0 [0x61, 0x62, 0x63]).flatMap encode
    = [0x00001001#32, 0x00003002#32, 0x00636261#32, 0x00000003#32] := by decide +kernel

/-! ### Small states -/

/-- The state after an outcome, if there is one. -/
def stateOf : Result → Option State
  | .next s => some s
  | .fault _ => none
  | .refused _ => none

/-- The response words an outcome leaves in the port. -/
def portOf (r : Result) : Option (List Word) := (stateOf r).map State.respPort

/-- After reset, with `caps_in` = `caps`. -/
def withCaps (caps : BitVec 7) : State := { State.reset with capsIn := caps }

/-- Two contexts, the first one `x`, the cache filled with 0. -/
def oneCtx (x : Context) : State := { State.reset with capsValid := true, ctxs := [x, Context.reset] }

/-- An Absorbing scalar context with `buf` buffered. -/
def running (alg : Alg) (bo : ByteOrder) (buf : List Byte) (count : DWord) : Context :=
  { initialContext alg bo .scalar false with life := .absorbing, buf := buf, count := count }

/-- A Fresh little-endian Fletcher4 context on the kernel `k`. -/
def freshF4 (k : KernelId) : Context := initialContext .fletcher4 .little k false

/-! ### One step of each command -/

/-- R331, example: caps_in = 0x7F, auto selects simd512-8lane. -/
theorem test_init_f4_auto :
    portOf (step ((withCaps 0x7F).withFetchWord 32 0x00000101)) = some [0x00011000#32, 0x00001861#32] := by
  decide

/-- T-DSP-04: simd512-8lane without avx512f downgrades with WARN in both words. -/
theorem test_init_f4_downgrade :
    portOf (exec (.initF4Le 0 (.named .simd512x8)) (withCaps 0x07)) = some [0x00011100#32, 0x00002111#32] := by
  decide

/-- L1.4, seed test 3: be, request 4 (simd256-4lane), CTXSTAT 00001449. -/
theorem test_init_f4be : portOf (exec (.initF4Be 0 (.named .simd256x4)) (withCaps 0x7F))
    = some [0x00011000#32, 0x00001449#32] := by decide

/-- T-DSP-01, caps_in = 0x40: SHA-256 auto selects sha-native. -/
theorem test_init_sha_native : portOf (exec (.initSha256 1 .auto) (withCaps 0x40))
    = some [0x00011000#32, 0x00001075#32] := by decide

/-- T-DSP-06, C10: a BAD_CONTEXT INIT does not fill the cache. -/
theorem test_init_bad_context_samples_nothing :
    (stateOf (exec (.initSha256 4 .auto) (withCaps 0x7F))).map (fun t => (t.capsValid, t.respPort))
      = some (false, [0x00010011#32]) := by decide

/-- R332, example: UPDATE "abc" leaves BUFLEN 3 and COUNT 24. -/
theorem test_update_sha_buffers :
    (stateOf (exec (.update 0 3 [0x00636261#32]) (oneCtx (initialContext .sha256 .little .scalar false)))).map
        (fun t => (t.respPort, (t.ctx? 0).map fun x => (x.buf, x.count, x.life)))
      = some ([0x00020000#32], some ([0x61, 0x62, 0x63], 24, .absorbing)) := by decide

/-- P1, steps 4 and 5: FINALIZE of "abc". -/
theorem test_finalize_sha_abc :
    portOf (exec (.finalize 0) (oneCtx (running .sha256 .little [0x61, 0x62, 0x63] 24)))
      = some [0x00038000#32, 0xba7816bf#32, 0x8f01cfea#32, 0x414140de#32, 0x5dae2223#32, 0xb00361a3#32, 0x96177a9c#32,
          0xb410ff61#32, 0xf20015ad#32] := by decide +kernel

/-- T-F4-07: bytes 01 02 03 04 wait in the buffer of an eight-lane be context; FINALIZE runs them through the scalar
step. -/
theorem test_finalize_f4_tail :
    portOf (exec (.finalize 0) (oneCtx { running .fletcher4 .big [1, 2, 3, 4] 4 with impl := some .simd512x8 }))
      = some [0x00038000#32, 0x01020304#32, 0#32, 0x01020304#32, 0#32, 0x01020304#32, 0#32, 0x01020304#32, 0#32] := by
  decide

/-- R332, example: STATUS after UPDATE "abc". -/
theorem test_status_absorbing :
    portOf (exec (.status 0) (oneCtx (running .sha256 .little [0x61, 0x62, 0x63] 24)))
      = some [0x00043000#32, 0x00030016#32, 0x00000018#32, 0x00000000#32] := by decide

/-- T-ERR-02: STATUS c4 with four contexts. -/
theorem test_status_bad_context : portOf (step (State.reset.withFetchWord 32 0x00000404)) = some [0x00040011#32] := by
  decide

/-- P5, step 1. -/
theorem test_caps : portOf (exec .caps (withCaps 0x44))
    = some [0x00053000#32, 0x00000044#32, 0x000000fe#32, 0x00009232#32] := by decide

/-- T-DSP-05: a later CAPS reads the cache, not `caps_in`. -/
theorem test_caps_cached :
    portOf (exec .caps { withCaps 0x7F with capsValid := true, capsCache := 0x05 })
      = some [0x00053000#32, 0x00000005#32, 0x000000fe#32, 0x00001236#32] := by decide

/-- R337, example. -/
theorem test_illegal : portOf (step (State.reset.withFetchWord 32 0x000000ff)) = some [0x00ff0010#32] := by
  decide

/-- T-ERR-02: UPDATE of an Unbound context consumes its payload and answers NOT_INITIALISED. -/
theorem test_update_unbound : portOf (step (State.reset.withFetchWord 64 0x6463626100004002)) = some [0x00020012#32] := by
  decide

/-! ### Engines: the worked examples of the rules -/

/-- T-F4-03, T-F4-04, T-F4-12: the three reductions. -/
theorem test_reductions :
    reduce2 (laneQuads 2 [1, 2, 3, 4]) = { a := 10, b := 20, c := 35, d := 56 }
    ∧ reduce4 (laneQuads 4 [1, 2, 3, 4, 5, 6, 7, 8]) = { a := 36, b := 120, c := 330, d := 792 }
    ∧ reduce8 (laneQuads 8 [1, 2, 3, 4, 5, 6, 7, 8]) = { a := 36, b := 120, c := 330, d := 792 } := by decide

/-- T-F4-02. -/
theorem test_merge : f4Merge { a := 3, b := 4, c := 5, d := 6 } { a := 7, b := 10, c := 13, d := 16 } 2
    = { a := 10, b := 20, c := 35, d := 56 } := by decide

/-- R250 to R252, examples. -/
theorem test_sha_functions :
    ch 0xFF00FF00 0x12345678 0x9ABCDEF0 = 0x12BC56F0 ∧ maj 0xFF00FF00 0x12345678 0x9ABCDEF0 = 0x9A34DE70
    ∧ bigSigma0 1 = 0x40080400 ∧ bigSigma1 1 = 0x04200080 ∧ smallSigma0 0xFFFFFFFF = 0x1FFFFFFF
    ∧ smallSigma1 0xFFFFFFFF = 0x003FFFFF ∧ smallSigma0 1 = 0x02004000 ∧ smallSigma1 1 = 0x0000A000 := by
  decide

/-- T-SHA-05: 56 bytes "a" buffered finish in two blocks. -/
theorem test_sha_two_final_blocks :
    (shaFinish initialHash (List.replicate 56 0x61) 448).words
      = [0xb35439a4#32, 0xac6f0948#32, 0xb6d6f9e3#32, 0xc6af0f5f#32, 0x590ce20f#32, 0x1bde7090#32, 0xef797068#32,
          0x6ec6738a#32] := by decide +kernel

/-- P4: 11 bytes on the eight-lane kernel are all buffered, then 29 more fill one stride and leave 8. -/
theorem test_eight_lanes_top_up :
    ((updateContext defaultConfig { freshF4 .simd512x8 with life := .absorbing, buf := List.replicate 11 1, count := 11 }
        (List.replicate 29 2)).buf.length,
      (updateContext defaultConfig (freshF4 .simd512x8) (List.replicate 11 1)).buf.length) = (8, 11) := by
  decide

/-! ### The machine around a command -/

/-- T-LIF-05: reset between the words of an UPDATE. -/
theorem test_reset_between_words :
    (stateOf (step { oneCtx (running .sha256 .little [1] 8) with
        framing := .payload 0x00008002 1 [0x04030201], turns := [.reset] })).map
      (fun t => (t.framing, t.respPort, t.capsValid, t.ctxs))
      = some (.idle, [], false, [Context.reset, Context.reset]) := by decide

/-- R468, RESP_DEPTH = 9 with one word unread: an UPDATE and an INIT fit and are taken, a FINALIZE that answers a digest
is not. -/
theorem test_room_of_the_next_response :
    let s := { oneCtx (running .sha256 .little [1] 8) with
      cfg := { defaultConfig with respDepth := 9 }, respPort := [7] }
    ((takeWord { s with cmdPort := [0x00000002] }).1.cmdPort, (takeWord { s with cmdPort := [0x00001001] }).1.cmdPort,
      (takeWord { s with cmdPort := [0x00000003] }).1.cmdPort) = ([], [], [0x00000003#32]) := by decide

/-- P3, step 8: a payload word 00000000 is payload, not an illegal header. -/
theorem test_payload_word_is_payload :
    portOf (step { State.reset with framing := .payload 0x00001302 1 [], cmdPort := [0] })
      = some [0x00020012#32] := by decide

/-! ### Witnesses: the hypotheses of the statements can be met -/

theorem witness_DecodeInvertsEncode : (Instr.update 2 5 [1, 2]).wf = true ∧ (Instr.illegal 3).wf = true := by decide

theorem witness_EncodeInvertsDecode :
    ([1, 2] : List Word).length = payloadWords 0x00005202 ∧ command 0x00005202 [1, 2] = .update 2 5 [1, 2] := by
  decide

/-- The boundaries of R119's conditions: each illegal clause, and the last legal word beside it. -/
theorem witness_IllegalHeadersExactly :
    command 0x00000006 [] = .illegal 6 ∧ command 0x00040001 [] = .illegal 1 ∧ command 0x00003001 [] = .illegal 1
    ∧ command 0x00001004 [] = .illegal 4 ∧ command 0x00000105 [] = .illegal 5
    ∧ command 0x0003e001 [] = .initF4Be 0 (.unknown 7) := by decide

theorem witness_HeaderFixesLength :
    (0x00005202#32 : Word).extractLsb' 0 8 = 0x02#8 ∧ ((0x00005202#32 : Word).extractLsb' 12 20).toNat ≤ 4 * 2
    ∧ 4 * 2 < ((0x00005202#32 : Word).extractLsb' 12 20).toNat + 4
    ∧ (0x00000304#32 : Word).extractLsb' 0 8 ≠ 0x02#8 := by decide

/-- Both ways a command completes: a one-word command, and the last payload word; with and without a turn listed. -/
theorem witness_StepRunsDecodedCommand :
    decode [0x00000304#32] = .ok (.status 3, [])
    ∧ decode (0x00005202#32 :: ([1#32].reverse ++ [2#32])) = .ok (.update 2 5 [1, 2], [])
    ∧ ({ State.reset with cmdPort := [0x00000304], turns := [.core] } : State).turns = [.core]
    ∧ ({ State.reset with framing := .payload 0x00005202 1 [1], cmdPort := [2] } : State).turns = [] := by
  decide

/-- With one word free, and with and without a turn listed. -/
theorem witness_FramingTakesPayload :
    State.reset.framing = .idle ∧ (0x00001002#32 : Word).extractLsb' 0 8 = 0x02#8
    ∧ (0x00001002#32 : Word).extractLsb' 12 20 ≠ 0#20
    ∧ ({ State.reset with framing := .payload 0x00005202 2 [] } : State).framing = .payload 0x00005202 (0 + 2) []
    ∧ ∃ s : State, s.turns = [.core] ∧ s.respPort.length + 1 = s.cfg.respDepth :=
  ⟨rfl, by decide, by decide, rfl,
    { State.reset with turns := [.core], cfg := { defaultConfig with respDepth := 9 }, respPort := List.replicate 8 0 },
    by decide⟩

theorem witness_WordsOfCommandRunIt :
    (Instr.update 0 5 [1, 2]).wf = true ∧ State.reset.turns = [] ∧ State.reset.framing = .idle
    ∧ ({ State.reset with cmdPort := [0x00005002, 1, 2, 5] } : State).cmdPort = encode (.update 0 5 [1, 2]) ++ [5]
    ∧ portOf (exec (.update 0 5 [1, 2]) { State.reset with cmdPort := [5] }) = some [0x00020012#32] := by
  decide

/-- A full port and a word to take, an empty command port, a port with and without a word to read, a write, a change of
`caps_in`. -/
theorem witness_HoldsWithoutRoomOrWord :
    ∃ full idle read empty write set : State,
      (full.turns = [.core] ∧ full.cfg.respDepth ≤ full.respPort.length ∧ full.cmdPort = [5])
      ∧ (idle.turns = [] ∧ idle.cmdPort = []) ∧ (read.turns = [.read] ∧ read.respPort = [1, 2])
      ∧ (empty.turns = [.read] ∧ empty.respPort = []) ∧ write.turns = [.write 5, .core] ∧ set.turns = [.setCaps 0x7F] :=
  ⟨{ State.reset with
      cfg := { defaultConfig with respDepth := 9 }, respPort := List.replicate 9 1, turns := [.core], cmdPort := [5] },
    State.reset, { State.reset with respPort := [1, 2], turns := [.read] }, { State.reset with turns := [.read] },
    { State.reset with turns := [.write 5, .core] }, { State.reset with turns := [.setCaps 0x7F] }, by decide⟩

theorem witness_RunOfCommands :
    (∀ i ∈ [Instr.update 0 5 [1, 2], .caps], i.wf = true)
    ∧ (execAll [Instr.update 0 5 [1, 2], .caps] State.reset).map (fun t => t.respPort.length) = some 5
    ∧ [Instr.update 0 5 [1, 2], .caps].flatMap encode = [0x00005002#32, 1, 2, 5] := by decide

/-- A step in which the response port grows, one in which the host reads. -/
theorem witness_ResponsesOnlyAppend :
    portOf (step { State.reset with cmdPort := [6] }) = some [0x00060010#32]
    ∧ portOf (step { State.reset with respPort := [1, 2], turns := [.read] }) = some [2#32] := by decide

theorem witness_PayloadBytesArePacked :
    5 ≤ 4 * [0x04030201#32, 0x99999905#32].length
    ∧ payloadBytes 5 [0x04030201#32, 0x99999905#32] = [1, 2, 3, 4, 5] := by decide

/-- T-SHA-10: one byte bd, pad bits 0 or 1. -/
theorem witness_PadBitsIgnored :
    (1#20).toNat % 4 ≠ 0 ∧ ([] : List Word).length = (1#20).toNat / 4
    ∧ ∀ k, k < 8 * ((1#20).toNat % 4) → (0x000000bd#32).getLsbD k = (0xffffffbd#32).getLsbD k := by decide

theorem witness_WordDecodingByByteOrder :
    ([1, 2, 3, 4] : List Byte).length % 4 = 0
    ∧ (wordsOf .big ([1, 2, 3, 4] ++ 5 :: 6 :: 7 :: 8 :: [9]))[4 / 4]? = some 0x05060708#32 := by decide

theorem witness_ResetAnywhere :
    ∃ s : State, s.turns = [.reset] ∧ s.framing = .payload 0x00008002 1 [0x04030201] :=
  ⟨{ State.reset with turns := [.reset], framing := .payload 0x00008002 1 [0x04030201] }, by decide⟩

theorem witness_ParametersNeverChange :
    (stateOf (step { State.reset with turns := [.reset] })).isSome = true := by decide

theorem witness_AvailabilityByTable :
    defaultConfig.kernelTable = defaultKernelTable
    ∧ avail defaultConfig 0x08 .fletcher4 .simd512x8 = true ∧ avail defaultConfig 0x07 .fletcher4 .simd512x8 = false := by
  decide

theorem witness_AutoSelectsFirstAvailable :
    select defaultConfig 0x05 .fletcher4 .auto = (.simd256x8, false)
    ∧ select defaultConfig 0x00 .sha256 .auto = (.scalar, false) := by decide

theorem witness_RequestGrantedOrDowngraded :
    avail defaultConfig 0x02 .sha256 .simd128x4 = true ∧ avail defaultConfig 0x7F .sha256 .simd128x2 = false := by decide

theorem witness_CacheWrittenOnce :
    ∃ s : State, s.capsValid = true ∧ s.turns.head? ≠ some .reset ∧ portOf (step s) = some [0x00060010#32] :=
  ⟨{ State.reset with capsValid := true, cmdPort := [6] }, by decide⟩

theorem witness_OnlyInitAndCapsSample :
    State.reset.capsValid = false ∧ (stateOf (exec .caps State.reset)).isSome = true
    ∧ (3#4).toNat < State.reset.numContexts ∧ (stateOf (exec (.status 0) State.reset)).isSome = true := by
  decide

theorem witness_CapsInIgnoredAfterSample :
    (oneCtx Context.reset).capsValid = true ∧ (stateOf (exec (.initF4Le 0 .auto) (oneCtx Context.reset))).isSome = true := by
  decide

/-- The last context in range and the first out of range, on four contexts; the last number on sixteen. -/
theorem witness_InitBindsContext_ContextOutOfRange :
    (3#4).toNat < State.reset.numContexts ∧ State.reset.numContexts ≤ (4#4).toNat
    ∧ ({ State.reset with ctxs := List.replicate 16 Context.reset } : State).numContexts = 16 := by decide

theorem witness_NotLiveRefused :
    (oneCtx { freshF4 .scalar with life := .finalised }).ctx? 0 = some { freshF4 .scalar with life := .finalised }
    ∧ ((oneCtx Context.reset).ctx? 1).map Context.life = some .unbound := by decide

/-- A buffer one byte short of the stride, and an empty one. -/
theorem witness_UpdateAbsorbsWholeStrides :
    (oneCtx (running .sha256 .little (List.replicate 63 0) 504)).ctx? 0
        = some (running .sha256 .little (List.replicate 63 0) 504)
    ∧ (running .sha256 .little (List.replicate 63 0) 504).buf.length
        < stride defaultConfig (running .sha256 .little (List.replicate 63 0) 504)
    ∧ (freshF4 .simd256x8).life = .fresh ∧ (freshF4 .simd256x8).buf.length < stride defaultConfig (freshF4 .simd256x8)
    ∧ [0x00636261#32].length = ((3#20).toNat + 3) / 4 := by decide

theorem witness_EmptyUpdateOnlyAbsorbs :
    (oneCtx (freshF4 .scalar)).ctx? 0 = some (freshF4 .scalar) ∧ (freshF4 .scalar).life = .fresh
    ∧ (freshF4 .scalar).buf.length < stride defaultConfig (freshF4 .scalar) := by decide

/-- Seed test 4: "abc" in three parts and whole. -/
theorem witness_UpdateSplitting :
    payloadBytes (3#20).toNat [0x00636261#32]
      = bytesOf [(1#20, [0x61#32]), (1#20, [0x62#32]), (1#20, [0x63#32])]
    ∧ (∀ u ∈ [(1#20, [0x61#32]), (1#20, [0x62#32]), (1#20, [0x63#32])], u.2.length = payloadLen u.1)
    ∧ [0x00636261#32].length = payloadLen 3
    ∧ (freshF4 .scalar).life = .fresh ∧ (freshF4 .scalar).buf.length < stride defaultConfig (freshF4 .scalar)
    ∧ (oneCtx (freshF4 .scalar)).ctx? 0 = some (freshF4 .scalar) := by decide

theorem witness_FinalizeFletcher :
    (running .fletcher4 .big [1, 2, 3, 4] 4).life = .absorbing ∧ (running .fletcher4 .big [1, 2, 3, 4] 4).alg = .fletcher4
    ∧ (running .fletcher4 .big [1, 2, 3, 4] 4).buf.length % 4 = 0
    ∧ (oneCtx (running .fletcher4 .big [1, 2, 3, 4] 4)).ctx? 0 = some (running .fletcher4 .big [1, 2, 3, 4] 4) := by decide

theorem witness_FinalizeInvalidLength :
    (running .fletcher4 .little [1, 2, 3] 3).life = .absorbing ∧ (running .fletcher4 .little [1, 2, 3] 3).alg = .fletcher4
    ∧ (running .fletcher4 .little [1, 2, 3] 3).buf.length % 4 ≠ 0
    ∧ (oneCtx (running .fletcher4 .little [1, 2, 3] 3)).ctx? 0 = some (running .fletcher4 .little [1, 2, 3] 3) := by decide

/-- Both sides of the boundary between one final block and two, and the longest tail. -/
theorem witness_FinalizeSha :
    (shaPadded (List.replicate 55 0x61) 440).length = 64 ∧ (shaPadded (List.replicate 56 0x61) 448).length = 128
    ∧ (shaPadded (List.replicate 63 0x61) 504).length = 128
    ∧ (running .sha256 .little [1] 8).life = .absorbing ∧ (running .sha256 .little [1] 8).alg = .sha256
    ∧ (running .sha256 .little [1] 8).buf.length < 64
    ∧ (oneCtx (running .sha256 .little [1] 8)).ctx? 0 = some (running .sha256 .little [1] 8) := by decide +kernel

theorem witness_StatusAnswers :
    State.reset.ctx? 3 = some Context.reset ∧ State.reset.numContexts ≤ (4#4).toNat := by decide

theorem witness_CtxStatFields : (running .sha256 .little (List.replicate 63 0) 504).buf.length < 64
    ∧ ctxStat defaultConfig (running .sha256 .little (List.replicate 63 0) 504) = 0x003f0016
    ∧ (freshF4 .simd512x8).alg = .fletcher4 ∧ (freshF4 .simd512x8).impl = some .simd512x8
    ∧ (freshF4 .simd512x8).life ≠ .unbound ∧ defaultConfig.kernelTable = defaultKernelTable := by decide

theorem witness_LifecycleTable :
    (stateOf (exec (.finalize 0) (oneCtx (freshF4 .scalar)))).bind (fun t => (t.ctx? 0).map Context.life)
      = some .finalised ∧ commandCtx .caps = none := by decide

/-- Each error code is the first one somewhere. -/
theorem witness_ErrorsChangeNothing :
    firstCode (.illegal 6) State.reset = 0x10 ∧ firstCode (.status 4) State.reset = 0x11
    ∧ firstCode (.finalize 0) State.reset = 0x12
    ∧ firstCode (.finalize 0) (oneCtx { freshF4 .scalar with life := .finalised }) = 0x02
    ∧ firstCode (.finalize 0) (oneCtx (running .fletcher4 .little [1] 1)) = 0x01 := by decide

theorem witness_ContextsIndependent :
    (stateOf (exec (.finalize 0) (oneCtx (freshF4 .scalar)))).isSome = true
    ∧ commandCtx (.finalize 0) ≠ some 1 := by decide

theorem witness_CommandReadsOnlyItsContext :
    commandCtx (.finalize 0) = some 0 ∧ (oneCtx (freshF4 .scalar)).ctx? 0 = some (freshF4 .scalar)
    ∧ ({ oneCtx (freshF4 .scalar) with ctxs := [freshF4 .scalar, freshF4 .simd128x2] } : State).ctx? 0
        = some (freshF4 .scalar) := by decide

/-- R204, example: the run [3, 4], L = 2. -/
theorem witness_MergeContinuesRun :
    f4Scalar { a := 0, b := 0, c := 0, d := 0 } [3, 4] = { a := 7, b := 10, c := 13, d := 16 }
    ∧ 2#64 = BitVec.ofNat 64 ([3, 4] : List Word).length ∧ 3#64 = BitVec.ofNat 64 (2 * (2 + 1) / 2)
    ∧ 4#64 = BitVec.ofNat 64 (2 * (2 + 1) * (2 + 2) / 6) := by decide

theorem witness_GeneralReductionGivesTables :
    (laneQuads 2 [1, 2]).length = 2 ∧ (laneQuads 4 [1, 2, 3, 4]).length = 4
    ∧ (laneQuads 8 [1, 2, 3, 4, 5, 6, 7, 8]).length = 8 := by decide

theorem witness_LaneKernelsMatchScalar :
    ([] : List Word).length % laneCount .eight = 0 ∧ ([1, 2, 3, 4, 5, 6, 7, 8] : List Word).length % laneCount .eight = 0 := by
  decide

/-- T-F4-08: a palindromic word, and three bytes after it that make no word. -/
theorem witness_PalindromicWordsIgnoreByteOrder :
    ∀ i, i < 2 → 4 * i + 3 < ([1, 2, 2, 1, 5, 6, 7] : List Byte).length →
      ([1, 2, 2, 1, 5, 6, 7] : List Byte)[4 * i]? = ([1, 2, 2, 1, 5, 6, 7] : List Byte)[4 * i + 3]?
      ∧ ([1, 2, 2, 1, 5, 6, 7] : List Byte)[4 * i + 1]? = ([1, 2, 2, 1, 5, 6, 7] : List Byte)[4 * i + 2]? := by decide

/-- Whole messages: a context in range, a message of whole words, and one that is not. -/
theorem witness_FletcherDigestOfMessage_ShaDigestOfMessage_EmptyShaDigest :
    (0#4).toNat < State.reset.numContexts ∧ (bytesOf [(3#20, [0x00636261#32]), (1#20, [0x04#32])]).length % 4 = 0
    ∧ (bytesOf [(3#20, [0x00636261#32])]).length % 4 ≠ 0
    ∧ ∀ u ∈ [(3#20, [0x00636261#32]), (1#20, [0x04#32])], u.2.length = payloadLen u.1 := by decide

theorem witness_WordFunctionsBitByBit :
    (rotr 1 1).getLsbD 31 = (1#32).getLsbD ((31 + 1) % 32) ∧ (rotr 31 1).getLsbD 1 = true := by decide

theorem witness_ScheduleRecurrence :
    (shaPadded [0x61, 0x62, 0x63] 24).length = 64 ∧ (schedule (shaPadded [0x61, 0x62, 0x63] 24))[63]? = some 0x12b1edeb := by
  decide +kernel

theorem witness_HashOfAnyMessage :
    (0#4).toNat < State.reset.numContexts ∧ ([1, 2, 3, 4] : List Byte).length % 4 = 0
    ∧ ([1, 2, 3] : List Byte).length % 4 ≠ 0 := by decide

theorem witness_DigestIndependentOfKernel :
    Instr.initF4Be ∈ [Instr.initF4Le, Instr.initF4Be, Instr.initSha256]
    ∧ (0#4).toNat < State.reset.numContexts
    ∧ (∀ u ∈ [(3#20, [0x00636261#32])] ++ [(2#20, [0x00006261#32]), (1#20, [0x63#32])], u.2.length = payloadLen u.1)
    ∧ bytesOf [(3#20, [0x00636261#32])] = bytesOf [(2#20, [0x00006261#32]), (1#20, [0x63#32])] :=
  ⟨by simp, by decide, by decide, by decide⟩

/-- A state off reset that meets the invariant and takes a step: a running context, a payload half taken. -/
theorem witness_StepKeepsInv_StepKeepsCount :
    ∃ s : State, s.Inv ∧ (∀ x ∈ s.ctxs, CountOk s.cfg x) ∧ s.framing ≠ .idle ∧ (stateOf (step s)).isSome = true := by
  refine ⟨{ oneCtx (running .sha256 .little [1] 8) with framing := .payload 0x00005002 1 [7], cmdPort := [9] },
    ⟨?_, ?_, by decide, by decide⟩, ?_, by decide, by decide⟩
  · intro x hx
    rcases List.mem_cons.1 hx with rfl | hx
    · exact ⟨by decide, by decide, by decide, by decide, by decide, by decide⟩
    · obtain rfl := List.mem_singleton.1 hx
      exact ⟨by decide, by decide, by decide, by decide, by decide, by decide⟩
  · exact ⟨by decide, by decide, by decide⟩
  · intro x hx
    rcases List.mem_cons.1 hx with rfl | hx
    · exact fun _ => by decide
    · obtain rfl := List.mem_singleton.1 hx
      exact fun h => absurd h (by decide)

end Sys2Proof.Tests
end

section
/-! The command step in isolation: `exec` neither reads nor writes the command port and its framing, every command
and every step answers, and what the decoder makes of the words the encoder writes. -/

namespace Sys2Proof.Machine

/-! ### `exec` leaves the command port and the framing alone -/

/-- `s` with another framing and other words waiting at the command port. -/
def State.reframe (f : Framing) (ws : List Word) (s : State) : State := { s with framing := f, cmdPort := ws }

/-- `g` on the state that a result goes on with. -/
def onNext (g : State → State) : Result → Result
  | .next t => .next (g t)
  | .fault r => .fault r
  | .refused r => .refused r

section
variable (f : Framing) (ws : List Word) (s : State) (op : Byte) (c : BitVec 4)

@[simp] theorem reframe_ctx? : (s.reframe f ws).ctx? c = s.ctx? c := rfl
@[simp] theorem reframe_cfg : (s.reframe f ws).cfg = s.cfg := rfl
@[simp] theorem reframe_respPort : (s.reframe f ws).respPort = s.respPort := rfl

@[simp] theorem sampleCaps_reframe : sampleCaps (s.reframe f ws) = (sampleCaps s).reframe f ws := by
  simp only [sampleCaps_eq, State.reframe]

/-- Two command bodies that correspond under `reframe` still do behind the context check (R406). -/
theorem onContext_reframe {body body' : Context → Result} (h : ∀ x, body' x = onNext (State.reframe f ws) (body x)) :
    onContext op c (s.reframe f ws) body' = onNext (State.reframe f ws) (onContext op c s body) := by
  simp only [onContext, reframe_ctx?]
  cases s.ctx? c with
  | none => rfl
  | some x => exact h x

/-- The same behind the lifecycle checks (R402, R407). -/
theorem onLive_reframe {x : Context} {body body' : Result} (h : body' = onNext (State.reframe f ws) body) :
    onLive op x (s.reframe f ws) body' = onNext (State.reframe f ws) (onLive op x s body) := by
  subst h
  unfold onLive
  cases x.life <;> rfl

theorem execInit_reframe (alg : Alg) (bo : ByteOrder) (req : ImplReq) :
    execInit alg bo c req (s.reframe f ws) = onNext (State.reframe f ws) (execInit alg bo c req s) :=
  onContext_reframe f ws s _ c fun _ => by
    simp only [bind, sampleCaps_reframe]
    rfl

theorem execUpdate_reframe (n : BitVec 20) (p : List Word) :
    execUpdate c n p (s.reframe f ws) = onNext (State.reframe f ws) (execUpdate c n p s) :=
  onContext_reframe f ws s _ c fun _ => onLive_reframe f ws s _ rfl

theorem execFinalize_reframe :
    execFinalize c (s.reframe f ws) = onNext (State.reframe f ws) (execFinalize c s) :=
  onContext_reframe f ws s _ c fun x => onLive_reframe f ws s _ <| by
    cases x.alg with
    | fletcher4 => by_cases hb : x.buf.length % 4 = 0 <;> simp only [hb, if_true, if_false] <;> rfl
    | sha256 => rfl

theorem execStatus_reframe : execStatus c (s.reframe f ws) = onNext (State.reframe f ws) (execStatus c s) :=
  onContext_reframe f ws s _ c fun _ => rfl

theorem execCaps_reframe : execCaps (s.reframe f ws) = onNext (State.reframe f ws) (execCaps s) := by
  simp only [execCaps, sampleCaps_reframe]
  rfl

/-- A command does the same whatever the framing and the words that wait behind it, and leaves both as they are. -/
theorem exec_reframe (i : Instr) : exec i (s.reframe f ws) = onNext (State.reframe f ws) (exec i s) := by
  cases i with
  | initF4Le c req => exact execInit_reframe f ws s c _ _ req
  | initF4Be c req => exact execInit_reframe f ws s c _ _ req
  | initSha256 c req => exact execInit_reframe f ws s c _ _ req
  | update c n p => exact execUpdate_reframe f ws s c n p
  | finalize c => exact execFinalize_reframe f ws s c
  | status c => exact execStatus_reframe f ws s c
  | caps => exact execCaps_reframe f ws s
  | illegal op => rfl

/-- So the room a command needs (R468) does not depend on them either. -/
@[simp] theorem responseLength_reframe (i : Instr) : responseLength i (s.reframe f ws) = responseLength i s := by
  simp only [responseLength, exec_reframe]
  cases exec i s <;> rfl

end

/-! ### Totality -/

/-- R400: every command in every state has a next state. -/
theorem exec_next (i : Instr) (s : State) : ∃ t, exec i s = .next t := by
  obtain ⟨t, -, h, -⟩ := exec_respPort i s
  exact ⟨t, h⟩

/-- A step answers what its turn leaves, with the command that the turn completes, if any, executed. -/
theorem step_of_nextCommand_none {s t : State} (h : nextCommand s = (t, none)) : step s = .next t := by
  simp only [step, h]

theorem step_of_nextCommand_some {s t : State} {i : Instr} (h : nextCommand s = (t, some i)) : step s = exec i t := by
  simp only [step, h]

/-- R11: every step in every state has a next state. -/
theorem step_next (s : State) : ∃ t, step s = .next t := by
  rcases h : nextCommand s with ⟨t, _ | i⟩
  · exact ⟨t, step_of_nextCommand_none h⟩
  · obtain ⟨u, hu⟩ := exec_next i t
    exact ⟨u, (step_of_nextCommand_some h).trans hu⟩

/-- Settles O7: a step is one move of the surroundings, or one word taken, and at most one command, which always
answers. -/
theorem stepTotal : Obligations.StepTotal := fun s => ⟨step_next s, fun i => exec_next i s⟩

/-! ### Decoding what the encoder writes -/

/-- R110: a well-formed command carries as many payload words as its header announces. -/
theorem payload_length_of_wf {i : Instr} (h : i.wf = true) : i.payload.length = payloadWords (encodeHeader i) := by
  cases i with
  | initF4Le c req => exact Laws.PayloadCount.initF4Le c req h
  | initF4Be c req => exact Laws.PayloadCount.initF4Be c req h
  | initSha256 c req => exact Laws.PayloadCount.initSha256 c req h
  | update c n p => exact Laws.PayloadCount.update c n p h
  | finalize c => exact Laws.PayloadCount.finalize c h
  | status c => exact Laws.PayloadCount.status c h
  | caps => exact Laws.PayloadCount.caps h
  | illegal op => exact Laws.PayloadCount.illegal op h

/-- R119 (a): a header whose OP is none of the five is illegal. -/
theorem command_of_unknown_op {hdr : Word} (p : List Word)
    (h : hdrOp hdr ∉ [opInit, opUpdate, opFinalize, opStatus, opCaps]) : command hdr p = .illegal (hdrOp hdr) := by
  simp only [List.mem_cons, List.not_mem_nil, or_false, not_or] at h
  obtain ⟨hinit, hupdate, hfinalize, hstatus, hcaps⟩ := h
  unfold command
  split
  next e => exact absurd (BitVec.eq_of_toNat_eq e) hinit
  next e => exact absurd (BitVec.eq_of_toNat_eq e) hupdate
  next e => exact absurd (BitVec.eq_of_toNat_eq e) hfinalize
  next e => exact absurd (BitVec.eq_of_toNat_eq e) hstatus
  next e => exact absurd (BitVec.eq_of_toNat_eq e) hcaps
  next => rfl

/-- R119 (a), (b), (d), (e): the header that the encoder writes for an illegal OP is illegal with that OP. -/
theorem command_encodeIllegal {op : Byte} (h : op ≠ opUpdate) (p : List Word) :
    command (encodeIllegal op) p = .illegal op := by
  by_cases hl : op = opInit ∨ op = opFinalize ∨ op = opStatus ∨ op = opCaps
  · rcases hl with rfl | rfl | rfl | rfl <;> rfl
  · have hop : hdrOp (encodeIllegal op) = op := Laws.HeaderOp.illegal op
    rw [command_of_unknown_op, hop]
    simp only [hop, List.mem_cons, List.not_mem_nil, or_false]
    tauto

/-- R118 to R120: header and payload of a well-formed command make that command. -/
theorem command_encode {i : Instr} (h : i.wf = true) : command (encodeHeader i) i.payload = i := by
  cases i with
  | initF4Le c req => simp [encodeHeader, command, commandInit]
  | initF4Be c req => simp [encodeHeader, command, commandInit]
  | initSha256 c req => simp [encodeHeader, command, commandInit]
  | update c n p => simp [encodeHeader, command, Instr.payload]
  | finalize c => simp [encodeHeader, command]
  | status c => simp [encodeHeader, command]
  | caps => simp [encodeHeader, command]
  | illegal op => exact command_encodeIllegal (by simpa [Instr.wf] using h) _

end Sys2Proof.Machine
end

section
/-! A command word by word (R81, R91, R330): the CORE takes the words of a command one step each, stores all but the
last, and runs the command in the step of the last one. -/

namespace Sys2Proof.Machine

/-! ### One word -/

/-- R46: an UPDATE header with payload words opens the payload. -/
theorem frameWord_idle_opens {hdr : Word} (h : 0 < payloadWords hdr) :
    frameWord .idle hdr = (.payload hdr (payloadWords hdr) [], none) := by
  rw [frameWord, if_neg (Nat.ne_of_gt h)]

/-- R110: a header with no payload words is a whole command. -/
theorem frameWord_idle_completes {hdr : Word} (h : payloadWords hdr = 0) :
    frameWord .idle hdr = (.idle, some (command hdr [])) := by
  rw [frameWord, if_pos h]

/-- R46: a payload word that is not the last one due is stored. -/
theorem frameWord_payload_stores (hdr w : Word) {due : Nat} (taken : List Word) (h : 1 < due) :
    frameWord (.payload hdr due taken) w = (.payload hdr (due - 1) (w :: taken), none) := by
  rw [frameWord, if_neg (Nat.not_le_of_gt h)]

/-- R46: the last payload word due completes the command. -/
theorem frameWord_payload_completes (hdr w : Word) (taken : List Word) :
    frameWord (.payload hdr 1 taken) w = (.idle, some (command hdr (taken.reverse ++ [w]))) := by
  simp [frameWord]

section
variable {s : State} {w : Word} {rest : List Word} {f : Framing}

/-- R81: with no host move listed and room for the response, the CORE takes the first word of the port. -/
theorem nextCommand_takes (hturns : s.turns = []) (hport : s.cmdPort = w :: rest) {done : Option Instr}
    (hf : frameWord s.framing w = (f, done)) (hroom : hasRoom done s = true) :
    nextCommand s = (s.reframe f rest, done) := by
  simp [nextCommand, hturns, takeWord, hport, hf, hroom, State.reframe]

/-- A word that completes no command changes the framing alone, where one response word has room (R468). -/
theorem step_stores (hturns : s.turns = []) (hport : s.cmdPort = w :: rest)
    (hf : frameWord s.framing w = (f, none)) (hroom : s.respPort.length < s.cfg.respDepth) :
    step s = .next (s.reframe f rest) :=
  step_of_nextCommand_none (nextCommand_takes hturns hport hf (by simpa [hasRoom] using hroom))

/-- R91: the word that completes a command runs it, where its response has room (R468). -/
theorem step_completes (hturns : s.turns = []) (hport : s.cmdPort = w :: rest) {i : Instr}
    (hf : frameWord s.framing w = (f, some i))
    (hroom : s.respPort.length + responseLength i s ≤ s.cfg.respDepth) :
    step s = exec i (s.reframe f rest) :=
  step_of_nextCommand_some (nextCommand_takes hturns hport hf (by simpa [hasRoom] using hroom))

end

/-! ### Runs -/

/-- A machine's run of one step more begins with that step. -/
theorem coreRun_succ (M : Host.Core) {s t : M.State} (h : M.step s = .next t) (k : Nat) :
    M.run (k + 1) s = M.run k t := by
  simp only [Host.Core.run, h]

/-- The machine's run, at the model's own state and result types. -/
def run (k : Nat) (s : State) : Result := Host.Core.run core k s

@[simp] theorem run_zero (s : State) : run 0 s = .next s := rfl

theorem run_succ {s t : State} (h : step s = .next t) (k : Nat) : run (k + 1) s = run k t :=
  coreRun_succ core h k

/-- The last of a run's steps is a step. -/
theorem run_add_one {k : Nat} {s t : State} (h : run k s = .next t) :
    run (k + 1) s = step t := by
  induction k generalizing s with
  | zero =>
    obtain rfl : s = t := Host.Outcome.next.inj h
    obtain ⟨u, hu⟩ := step_next s
    rw [run_succ hu, hu, run_zero]
  | succ k ih =>
    obtain ⟨u, hu⟩ := step_next s
    rw [run_succ hu] at h ⊢
    exact ih h

/-- Payload words short of the last one due are stored, newest first, one step each; nothing else changes. -/
theorem run_stores_payload {s : State} {hdr : Word} {due : Nat} {taken ws rest : List Word}
    (hturns : s.turns = []) (hroom : s.respPort.length < s.cfg.respDepth)
    (hframing : s.framing = .payload hdr due taken) (hport : s.cmdPort = ws ++ rest) (hdue : ws.length < due) :
    run ws.length s
      = .next (s.reframe (.payload hdr (due - ws.length) (ws.reverse ++ taken)) rest) := by
  induction ws generalizing s due taken with
  | nil =>
    obtain rfl : s.cmdPort = rest := hport
    simp only [State.reframe, List.length_nil, Nat.sub_zero, List.reverse_nil, List.nil_append, ← hframing]
    rfl
  | cons w ws ih =>
    rw [List.length_cons] at hdue ⊢
    have hstep : step s = .next (s.reframe (.payload hdr (due - 1) (w :: taken)) (ws ++ rest)) :=
      step_stores hturns hport (by rw [hframing, frameWord_payload_stores _ _ _ (by omega)]) hroom
    rw [run_succ hstep]
    refine Eq.trans (ih hturns hroom rfl rfl (by omega)) ?_
    simp [State.reframe, Nat.sub_sub, Nat.add_comm 1]

/-- From an Idle framing, a header and payload words short of all it announces are framed, one step each; nothing else
changes. -/
theorem run_opens_and_stores {s : State} {hdr : Word} {ws rest : List Word}
    (hturns : s.turns = []) (hroom : s.respPort.length < s.cfg.respDepth) (hframing : s.framing = .idle)
    (hport : s.cmdPort = hdr :: (ws ++ rest)) (hdue : ws.length < payloadWords hdr) :
    run (ws.length + 1) s
      = .next (s.reframe (.payload hdr (payloadWords hdr - ws.length) ws.reverse) rest) := by
  have hstep : step s = .next (s.reframe (.payload hdr (payloadWords hdr) []) (ws ++ rest)) :=
    step_stores hturns hport (by rw [hframing, frameWord_idle_opens (by omega)]) hroom
  rw [run_succ hstep]
  refine Eq.trans (run_stores_payload hturns hroom rfl rfl hdue) ?_
  rw [List.append_nil]
  rfl

/-! ### The whole command -/

section
variable {s : State} {i : Instr} {rest : List Word}

/-- A state short of the last word of a command has the contexts, responses and cache it began with (R91). -/
theorem run_before_last_word (hwf : i.wf = true) (hturns : s.turns = []) (hframing : s.framing = .idle)
    (hport : s.cmdPort = encode i ++ rest) (hroom : s.respPort.length < s.cfg.respDepth)
    {k : Nat} (hk : k < (encode i).length) :
    ∃ f ws, run k s = .next (s.reframe f ws) := by
  cases k with
  | zero => exact ⟨s.framing, s.cmdPort, rfl⟩
  | succ k =>
    have hk' : k < i.payload.length := by simpa [encode] using hk
    have hlen : (i.payload.take k).length = k := List.length_take_of_le hk'.le
    have hsplit : s.cmdPort = encodeHeader i :: (i.payload.take k ++ (i.payload.drop k ++ rest)) := by
      rw [hport, ← List.append_assoc, List.take_append_drop]
      rfl
    have hrun := run_opens_and_stores hturns hroom hframing hsplit (by rw [hlen, ← payload_length_of_wf hwf]; exact hk')
    rw [hlen] at hrun
    exact ⟨_, _, hrun⟩

/-- As many steps as a command has words are the command itself (R11, R91). -/
theorem run_whole_command (hwf : i.wf = true) (hturns : s.turns = []) (hframing : s.framing = .idle)
    (hport : s.cmdPort = encode i ++ rest) (hroom : s.respPort.length < s.cfg.respDepth)
    (hfits : s.respPort.length + responseLength i s ≤ s.cfg.respDepth) :
    run (encode i).length s = exec i (s.reframe .idle rest) := by
  have hcount := payload_length_of_wf hwf
  have hcommand := command_encode hwf
  rw [encode, List.length_cons]
  rcases List.eq_nil_or_concat' i.payload with hp | ⟨ws, w, hp⟩ <;> rw [hp] at hcount hcommand
  · rw [hp, List.length_nil, run_add_one (run_zero s)]
    have hport' : s.cmdPort = encodeHeader i :: rest := by simpa [encode, hp] using hport
    exact step_completes hturns hport' (by rw [hframing, frameWord_idle_completes hcount.symm, hcommand]) hfits
  · rw [List.length_append, List.length_singleton] at hcount
    have hport' : s.cmdPort = encodeHeader i :: (ws ++ w :: rest) := by simpa [encode, hp] using hport
    have hrun := run_opens_and_stores hturns hroom hframing hport' (by omega)
    rw [← hcount, Nat.add_sub_cancel_left] at hrun
    rw [hp, List.length_append, List.length_singleton, run_add_one hrun]
    have hlast : frameWord (.payload (encodeHeader i) 1 ws.reverse) w = (.idle, some i) := by
      rw [frameWord_payload_completes, List.reverse_reverse, hcommand]
    exact step_completes (s := s.reframe _ (w :: rest)) hturns rfl hlast (by simpa using hfits)

end

/-- Settles O10: the words before the last only change the framing, and the last one runs the command. That the
command's response fits gives every earlier word its room, since each response has a word. -/
theorem wordsOfCommandRunIt : Obligations.WordsOfCommandRunIt := by
  intro s i rest hwf hturns hframing hport hfits
  have hstart : { s with cmdPort := rest } = s.reframe .idle rest := by rw [← hframing]; rfl
  obtain ⟨t, r, hexec, hresp, hlen, hpos, -⟩ := exec_respPort i (s.reframe .idle rest)
  rw [responseLength_reframe] at hlen
  have hfit : s.respPort.length + r.length ≤ s.cfg.respDepth := by
    simpa [hresp] using hfits t (hstart ▸ hexec)
  refine ⟨fun k hk => ?_, ?_⟩
  · obtain ⟨f, ws, hrun⟩ := run_before_last_word hwf hturns hframing hport (by omega) hk
    exact ⟨_, hrun, rfl, rfl, rfl, rfl⟩
  · rw [hstart]
    exact run_whole_command hwf hturns hframing hport (by omega) (hlen ▸ hfit)

end Sys2Proof.Machine
end

section
/-! The SHA-256 word functions bit by bit (R8, R250). -/

namespace Sys2Proof.Machine

/-- R8: ROTR_n moves bit (i + n) mod 32 to bit i. The bits below 32 − n come from the right shift, the others from the
left shift. -/
theorem getLsbD_rotr {n i : Nat} (x : Word) (hn : n < 32) (hi : i < 32) :
    (rotr n x).getLsbD i = x.getLsbD ((i + n) % 32) := by
  rw [rotr, BitVec.getLsbD_or, BitVec.getLsbD_ushiftRight, BitVec.getLsbD_shiftLeft]
  by_cases h : i + n < 32
  · have hlow : i < 32 - n := by omega
    simp [hlow, Nat.mod_eq_of_lt h, Nat.add_comm n i]
  · have hhigh : ¬ i < 32 - n := by omega
    have hbit : (i + n) % 32 = i - (32 - n) := by omega
    simp [hi, hhigh, hbit, BitVec.getLsbD_of_ge x (n + i) (by omega)]

/-- R250: Ch takes its bit from `y` where `x` has 1 and from `z` where `x` has 0. -/
theorem getLsbD_ch {i : Nat} (x y z : Word) (hi : i < 32) :
    (ch x y z).getLsbD i = if x.getLsbD i then y.getLsbD i else z.getLsbD i := by
  rw [ch, BitVec.getLsbD_xor, BitVec.getLsbD_and, BitVec.getLsbD_and, BitVec.getLsbD_not]
  cases x.getLsbD i <;> simp [hi]

/-- R250: Maj has 1 where at least two of its words have. -/
theorem getLsbD_maj (x y z : Word) (i : Nat) :
    (maj x y z).getLsbD i = decide (2 ≤ (x.getLsbD i).toNat + (y.getLsbD i).toNat + (z.getLsbD i).toNat) := by
  rw [maj, BitVec.getLsbD_xor, BitVec.getLsbD_xor, BitVec.getLsbD_and, BitVec.getLsbD_and, BitVec.getLsbD_and]
  generalize x.getLsbD i = a, y.getLsbD i = b, z.getLsbD i = c
  revert a b c
  decide

/-- Settles O51: the three functions, one bit each. -/
theorem wordFunctionsBitByBit : Obligations.WordFunctionsBitByBit := fun _ x y z i _ hn hi =>
  ⟨getLsbD_rotr x hn hi, getLsbD_ch x y z hi, getLsbD_maj x y z i⟩

end Sys2Proof.Machine
end

section
/-! What a command and a step can do, said once: before a command answers, it leaves the machine alone, samples the
capabilities, or writes the one context it names; a step is a reset, a move around the commands, or a word taken. -/

namespace Sys2Proof.Machine

/-! ### Before the answer -/

/-- R331: everything INIT writes, as an answer to a state that has sampled and holds the new context. -/
theorem bind_eq (alg : Alg) (bo : ByteOrder) (c : BitVec 4) (req : ImplReq) (s : State) :
    bind alg bo c req s =
      respond .ok (select s.cfg (sampleCaps s).capsCache alg req).2 opInit
        [ctxStat s.cfg (initialContext alg bo (select s.cfg (sampleCaps s).capsCache alg req).1
          (select s.cfg (sampleCaps s).capsCache alg req).2)]
        ((sampleCaps s).setCtx c (initialContext alg bo (select s.cfg (sampleCaps s).capsCache alg req).1
          (select s.cfg (sampleCaps s).capsCache alg req).2)) := by
  rw [← sampleCaps_cfg s]
  rfl

/-- R305: scalar serves both algorithms in every table. -/
theorem serves_scalar (t : KernelTable) (alg : Alg) : serves t alg .scalar = true := by cases alg <;> rfl

theorem serves_of_avail {cfg : Config} {caps : BitVec 7} {alg : Alg} {k : KernelId} (h : avail cfg caps alg k = true) :
    serves cfg.kernelTable alg k = true := (Bool.and_eq_true_iff.1 h).1

/-- R306 to R308: whatever is requested, the kernel selected serves the algorithm. -/
theorem serves_select (cfg : Config) (caps : BitVec 7) (alg : Alg) (req : ImplReq) :
    serves cfg.kernelTable alg (select cfg caps alg req).1 = true := by
  cases req with
  | auto =>
    rw [select, selectAuto]
    cases hfind : (autoOrder cfg.kernelTable alg).find? (avail cfg caps alg) with
    | none => exact serves_scalar _ _
    | some k => exact serves_of_avail (List.find?_some hfind)
  | named k =>
    rw [select]
    split
    next havail => exact serves_of_avail havail
    next => exact serves_scalar _ _
  | unknown low => exact serves_scalar _ _

/-- R338: what a command that names a context can write there: INIT the record of R331, with a kernel that serves the
algorithm; UPDATE and FINALIZE of a live context, what R332 and R334 make of it. -/
inductive ContextEffect (cfg : Config) (x : Context) : Context → Prop
  | init {alg : Alg} {bo : ByteOrder} {k : KernelId} (warn : Bool) (hserves : serves cfg.kernelTable alg k = true)
      (hlittle : alg = .sha256 → bo = .little) : ContextEffect cfg x (initialContext alg bo k warn)
  | update (m : List Byte) (hlive : x.life = .fresh ∨ x.life = .absorbing) : ContextEffect cfg x (updateContext cfg x m)
  | finalize (f4 : Quad) (h : Octet) (hlive : x.life = .fresh ∨ x.life = .absorbing) :
      ContextEffect cfg x { consume x with f4 := f4, h := h }

/-- What a command makes of the machine before it answers. INIT samples before it writes, and only INIT can write to an
Unbound context. -/
inductive CommandEffect (i : Instr) (s : State) : State → Prop
  | nothing : CommandEffect i s s
  | sampled : CommandEffect i s (sampleCaps s)
  | bound {c : BitVec 4} {x y : Context} (hnamed : commandCtx i = some c) (hx : s.ctx? c = some x)
      (hy : ContextEffect s.cfg x y) : CommandEffect i s ((sampleCaps s).setCtx c y)
  | written {c : BitVec 4} {x y : Context} (hnamed : commandCtx i = some c) (hx : s.ctx? c = some x)
      (hlive : x.life = .fresh ∨ x.life = .absorbing) (hy : ContextEffect s.cfg x y) : CommandEffect i s (s.setCtx c y)

/-- Every command is its effect and then one answer. -/
theorem exec_effect {i : Instr} {s t : State} (h : exec i s = .next t) :
    ∃ u code warn op p, CommandEffect i s u ∧ t = respond code warn op p u := by
  rcases exec_cases i s with ⟨code, -, -, he⟩ | ⟨c, x, -, -, he⟩ | ⟨-, he⟩ | ⟨alg, bo, c, req, x, hi, hx, he⟩
    | ⟨c, n, p, x, rfl, hx, hlive, he⟩ | ⟨c, x, rfl, hx, hlive, hends⟩
  case inr.inr.inr.inr.inr =>
    rcases hends with ⟨-, -, he⟩ | ⟨-, -, he⟩ | ⟨-, he⟩
      <;> exact ⟨_, _, _, _, _, .written rfl hx hlive (.finalize _ _ hlive), Host.Outcome.next.inj (h.symm.trans he)⟩
  all_goals obtain rfl := Host.Outcome.next.inj (h.symm.trans he)
  · exact ⟨_, _, _, _, _, .nothing, rfl⟩
  · exact ⟨_, _, _, _, _, .nothing, rfl⟩
  · exact ⟨_, _, _, _, _, .sampled, rfl⟩
  · have hnamed : commandCtx i = some c := by rcases hi with ⟨rfl, -⟩ | ⟨rfl, -⟩ | ⟨rfl, -⟩ <;> rfl
    have hlittle : alg = .sha256 → bo = .little := by
      rcases hi with ⟨-, rfl, rfl⟩ | ⟨-, rfl, rfl⟩ | ⟨-, rfl, rfl⟩ <;> simp
    exact ⟨_, _, _, _, _, .bound hnamed hx (.init _ (serves_select ..) hlittle), bind_eq ..⟩
  · exact ⟨_, _, _, _, _, .written rfl hx hlive (.update _ hlive), rfl⟩

namespace CommandEffect
variable {i : Instr} {s u : State}

/-- No command changes a parameter, the framing, the command port, `caps_in`, the responses given so far, the host's
record or its turns. -/
theorem frame (h : CommandEffect i s u) :
    u.numContexts = s.numContexts ∧ u.cfg = s.cfg ∧ u.framing = s.framing ∧ u.cmdPort = s.cmdPort
      ∧ u.capsIn = s.capsIn ∧ u.respPort = s.respPort ∧ u.hostGot = s.hostGot ∧ u.turns = s.turns := by
  cases h <;> simp [State.numContexts]

/-- R31: a context that the command does not name stays as it is. -/
theorem ctx?_of_not_named (h : CommandEffect i s u) {c : BitVec 4} (hc : commandCtx i ≠ some c) :
    u.ctx? c = s.ctx? c := by
  have hother {d : BitVec 4} (hd : commandCtx i = some d) : d ≠ c := fun e => hc (e ▸ hd)
  cases h with
  | nothing => rfl
  | sampled => exact sampleCaps_ctx? s c
  | bound hnamed => rw [setCtx_ctx?_other _ _ _ (hother hnamed), sampleCaps_ctx?]
  | written hnamed => exact setCtx_ctx?_other _ _ _ (hother hnamed)

/-- R45: a filled cache stays. -/
theorem capsCache_of_valid (h : CommandEffect i s u) (hvalid : s.capsValid = true) :
    u.capsValid = true ∧ u.capsCache = s.capsCache := by
  cases h <;> simp [hvalid]

/-- Every context after a command stood there before it or is what the command wrote in the place of one that did. -/
theorem mem_ctxs (h : CommandEffect i s u) {y : Context} (hy : y ∈ u.ctxs) :
    y ∈ s.ctxs ∨ ∃ x ∈ s.ctxs, ContextEffect s.cfg x y := by
  cases h with
  | nothing => exact .inl hy
  | sampled => exact .inl (by simpa using hy)
  | bound _ hx he =>
    rcases List.mem_or_eq_of_mem_set hy with hy | rfl
    · exact .inl (by simpa using hy)
    · exact .inr ⟨_, ctx?_mem hx, he⟩
  | written _ hx _ he =>
    rcases List.mem_or_eq_of_mem_set hy with hy | rfl
    · exact .inl hy
    · exact .inr ⟨_, ctx?_mem hx, he⟩

end CommandEffect

/-- Settles O43: the answer changes the response port alone, so the frame is that of the effect before it. -/
theorem contextsIndependent : Obligations.ContextsIndependent := by
  intro i s t h
  obtain ⟨u, code, warn, op, p, heffect, rfl⟩ := exec_effect h
  obtain ⟨hcount, hcfg, hframing, hcmd, hcaps, -, hgot, hturns⟩ := heffect.frame
  exact ⟨fun c hc => heffect.ctx?_of_not_named hc, hcount, hcfg, hframing, hcmd, hcaps, hgot, hturns⟩

/-! ### One step -/

/-- The state in which a word that completes a command runs it, and which a word that completes none leaves. -/
def tookWord (ts : List Turn) (w : Word) (rest : List Word) (s : State) : State :=
  { s with turns := ts, framing := (frameWord s.framing w).1, cmdPort := rest }

section
variable (ts : List Turn) (w : Word) (rest : List Word) (s : State)

@[simp] theorem tookWord_ctxs : (tookWord ts w rest s).ctxs = s.ctxs := rfl
@[simp] theorem tookWord_cfg : (tookWord ts w rest s).cfg = s.cfg := rfl
@[simp] theorem tookWord_capsValid : (tookWord ts w rest s).capsValid = s.capsValid := rfl
@[simp] theorem tookWord_capsCache : (tookWord ts w rest s).capsCache = s.capsCache := rfl
@[simp] theorem tookWord_respPort : (tookWord ts w rest s).respPort = s.respPort := rfl
@[simp] theorem tookWord_framing : (tookWord ts w rest s).framing = (frameWord s.framing w).1 := rfl

end

/-- The steps of the machine: a reset; a move that reaches neither contexts nor framing nor cache, in which the response
port can only get shorter; a word that completes no command; a word that completes one whose response fits. -/
inductive StepEffect (s : State) : State → Prop
  | reset (ts : List Turn) (hturns : s.turns = .reset :: ts) : StepEffect s (resetCore { s with turns := ts })
  | around (ts : List Turn) (resp cmd got : List Word) (caps : BitVec 7) (hresp : resp.length ≤ s.respPort.length) :
      StepEffect s { s with turns := ts, respPort := resp, cmdPort := cmd, hostGot := got, capsIn := caps }
  | stored (ts : List Turn) (w : Word) (rest : List Word) : StepEffect s (tookWord ts w rest s)
  | ran {ts : List Turn} {w : Word} {rest : List Word} {i : Instr} {u : State} (code : Code) (warn : Bool) (op : Byte)
      (p : List Word) (heffect : CommandEffect i (tookWord ts w rest s) u)
      (hfits : (respond code warn op p u).respPort.length ≤ s.cfg.respDepth) :
      StepEffect s (respond code warn op p u)

/-- With no turn listed, or leave to move, the CORE moves (R81). -/
theorem nextCommand_core {s : State} {ts : List Turn} (h : (s.turns = [] ∧ ts = []) ∨ s.turns = .core :: ts) :
    nextCommand s = takeWord { s with turns := ts } := by
  rcases h with ⟨h, rfl⟩ | h <;> simp only [nextCommand, h]
  rw [← h]

/-- A move of the CORE holds its state, stores a word, or runs a command whose response fits (R468). -/
theorem step_effect_core {s t : State} {ts : List Turn} (hturns : (s.turns = [] ∧ ts = []) ∨ s.turns = .core :: ts)
    (h : step s = .next t) : StepEffect s t := by
  have hnext := nextCommand_core hturns
  rcases takeWord_cases { s with turns := ts } with ⟨htake, -⟩ | ⟨w, rest, -, hroom, htake⟩ <;> rw [htake] at hnext
  · obtain rfl := Host.Outcome.next.inj (h.symm.trans (step_of_nextCommand_none hnext))
    exact .around ts _ _ _ _ le_rfl
  cases hdone : (frameWord s.framing w).2 with
  | none =>
    rw [hdone] at hnext
    obtain rfl := Host.Outcome.next.inj (h.symm.trans (step_of_nextCommand_none hnext))
    exact .stored ts w rest
  | some i =>
    rw [hdone] at hnext
    have hexec : exec i (tookWord ts w rest s) = .next t := (step_of_nextCommand_some hnext).symm.trans h
    have hlength : responseLength i (tookWord ts w rest s) = responseLength i { s with turns := ts } :=
      responseLength_reframe (frameWord s.framing w).1 rest { s with turns := ts } i
    obtain ⟨t', r, hexec', hresp, hr, -, -⟩ := exec_respPort i (tookWord ts w rest s)
    obtain rfl := Host.Outcome.next.inj (hexec.symm.trans hexec')
    have hfits : t.respPort.length ≤ s.cfg.respDepth := by
      rw [hresp, List.length_append, ← hr, hlength]
      simpa [hasRoom, hdone] using hroom
    obtain ⟨u, code, warn, op, p, heffect, rfl⟩ := exec_effect hexec
    exact .ran code warn op p heffect hfits

section
variable {s : State} {ts : List Turn}

theorem nextCommand_write {w : Word} (h : s.turns = .write w :: ts) :
    nextCommand s = (hostWrite w { s with turns := ts }, none) := by simp only [nextCommand, h]

theorem nextCommand_read (h : s.turns = .read :: ts) :
    nextCommand s = (hostRead { s with turns := ts }, none) := by simp only [nextCommand, h]

theorem nextCommand_setCaps {v : BitVec 7} (h : s.turns = .setCaps v :: ts) :
    nextCommand s = (setCaps v { s with turns := ts }, none) := by simp only [nextCommand, h]

theorem nextCommand_reset (h : s.turns = .reset :: ts) :
    nextCommand s = (resetCore { s with turns := ts }, none) := by simp only [nextCommand, h]

end

/-- Every step is one of the four. -/
theorem step_effect {s t : State} (h : step s = .next t) : StepEffect s t := by
  have outside {u : State} (hu : nextCommand s = (u, none)) : t = u :=
    Host.Outcome.next.inj (h.symm.trans (step_of_nextCommand_none hu))
  match hturns : s.turns with
  | [] => exact step_effect_core (.inl ⟨hturns, rfl⟩) h
  | .core :: ts => exact step_effect_core (.inr hturns) h
  | .write w :: ts =>
    obtain rfl := outside (nextCommand_write hturns)
    exact .around ts _ _ _ _ le_rfl
  | .read :: ts =>
    obtain rfl := outside (nextCommand_read hturns)
    rw [hostRead_eq]
    exact .around ts _ _ _ _ (by simp)
  | .setCaps v :: ts =>
    obtain rfl := outside (nextCommand_setCaps hturns)
    exact .around ts _ _ _ _ le_rfl
  | .reset :: ts =>
    obtain rfl := outside (nextCommand_reset hturns)
    exact .reset ts hturns

/-- Settles O24: a reset aside, a step leaves the cache to the command it runs, and a command leaves a filled cache. -/
theorem cacheWrittenOnce : Obligations.CacheWrittenOnce := by
  intro s t hvalid hreset h
  cases step_effect h with
  | reset ts hturns => simp [hturns] at hreset
  | around => exact ⟨hvalid, rfl⟩
  | stored => exact ⟨hvalid, rfl⟩
  | ran _ _ _ _ heffect => exact heffect.capsCache_of_valid hvalid

/-- R46, R81: the CORE's move with a word that completes no command, where there is room for one response word. -/
theorem step_core_stores {s : State} {ts : List Turn} {w : Word} {rest : List Word}
    (hturns : (s.turns = [] ∧ ts = []) ∨ s.turns = .core :: ts) (hroom : s.respPort.length < s.cfg.respDepth)
    (hport : s.cmdPort = w :: rest) (hdone : (frameWord s.framing w).2 = none) :
    step s = .next (tookWord ts w rest s) := by
  have htake : takeWord { s with turns := ts } = (tookWord ts w rest s, none) := by
    simp [takeWord, hport, hdone, hasRoom, hroom, tookWord]
  exact step_of_nextCommand_none ((nextCommand_core hturns).trans htake)

/-- Settles O9: the framing of a header with payload words, and of a payload word that is not the last. -/
theorem framingTakesPayload : Obligations.FramingTakesPayload := by
  intro s ts w rest hturns hroom hport
  have hstep := step_core_stores hturns hroom hport
  refine ⟨fun hframing hop hn => ?_, fun hdr k taken hframing => ?_⟩
  · have hwords : payloadWords w = ((w.extractLsb' 12 20).toNat + 3) / 4 := if_pos hop
    have hpos : 0 < payloadWords w := by
      have : (w.extractLsb' 12 20).toNat ≠ 0 := fun e => hn (BitVec.eq_of_toNat_eq e)
      omega
    have hframe := frameWord_idle_opens hpos
    rw [← hframing, hwords] at hframe
    rw [hstep (by rw [hframe]), tookWord, hframe]
  · have hframe := frameWord_payload_stores hdr w taken (show 1 < k + 2 by omega)
    rw [← hframing] at hframe
    rw [hstep (by rw [hframe]), tookWord, hframe, Nat.add_sub_assoc (by decide)]

end Sys2Proof.Machine
end

section
/-! What UPDATE makes of a context's buffer and count (R332), with the running state left open: the buffer is what is
left of the buffered and the new bytes after whole strides, and COUNT tells its length. -/

namespace Sys2Proof.Machine

variable (cfg : Config) (x : Context) (m : List Byte)

/-! ### Strides -/

/-- R6: K is one of the powers of two 1, 2, 4 and 8. -/
theorem laneCount_dvd (k : Lanes) : 0 < laneCount k ∧ laneCount k ∣ 8 := by cases k <;> decide

theorem stride_fletcher {cfg : Config} {x : Context} (h : x.alg = .fletcher4) :
    stride cfg x = 4 * laneCount (lanesOf cfg x) := by simp only [stride, h]

theorem stride_sha {cfg : Config} {x : Context} (h : x.alg = .sha256) : stride cfg x = 64 := by simp only [stride, h]

/-- R41, R217: a stride is at least a byte, and divides 2^64, so that a COUNT that wraps still tells the buffer's
length. -/
theorem stride_pos : 0 < stride cfg x := by
  cases h : x.alg with
  | fletcher4 => simpa [stride_fletcher h] using (laneCount_dvd _).1
  | sha256 => simp [stride_sha h]

theorem stride_dvd : stride cfg x ∣ 2 ^ 64 := by
  cases h : x.alg with
  | fletcher4 =>
    rw [stride_fletcher h]
    exact (Nat.mul_dvd_mul_left 4 (laneCount_dvd _).2).trans (by decide)
  | sha256 =>
    rw [stride_sha h]
    decide

/-! ### The running state changes, the rest of the context does not -/

theorem absorb_eq (run : List Byte) : ∃ f4 h, absorb cfg x run = { x with f4 := f4, h := h } := by
  unfold absorb
  cases x.alg <;> exact ⟨_, _, rfl⟩

/-- R332, step 2: the bulk leaves what is over after whole strides. -/
theorem absorbBulk_eq : ∃ f4 h, absorbBulk cfg x m
    = ({ x with f4 := f4, h := h }, m.drop (m.length / stride cfg x * stride cfg x)) := by
  by_cases hq : 0 < m.length / stride cfg x
  · obtain ⟨f4, h, habsorb⟩ := absorb_eq cfg x (m.take (m.length / stride cfg x * stride cfg x))
    exact ⟨f4, h, by rw [absorbBulk, if_pos hq, habsorb]⟩
  · exact ⟨x.f4, x.h, by simp [absorbBulk, Nat.eq_zero_of_not_pos hq]⟩

variable {cfg x m}

/-- R332, step 1: an empty buffer is left alone. -/
theorem topUp_of_empty (h : x.buf = []) : topUp cfg x m = (x, m) := if_pos h

/-- R332, step 1: bytes that do not fill the buffer all go into it. -/
theorem topUp_of_short (hne : x.buf ≠ []) (h : (x.buf ++ m).length < stride cfg x) :
    topUp cfg x m = ({ x with buf := x.buf ++ m }, []) := by
  have hlen := h
  rw [List.length_append] at hlen
  have hall : min (stride cfg x - x.buf.length) m.length = m.length := by omega
  simp only [topUp, if_neg hne, hall, List.take_length, List.drop_length, if_neg (Nat.ne_of_lt h)]

/-- R332, step 1: bytes that fill the buffer advance the running state by one stride. -/
theorem topUp_of_full (hne : x.buf ≠ []) (hshort : x.buf.length < stride cfg x)
    (h : stride cfg x ≤ (x.buf ++ m).length) :
    ∃ f4 h, topUp cfg x m = ({ x with f4 := f4, h := h, buf := [] }, (x.buf ++ m).drop (stride cfg x)) := by
  rw [List.length_append] at h
  have htake : min (stride cfg x - x.buf.length) m.length = stride cfg x - x.buf.length := by omega
  have hfull : (x.buf ++ m.take (stride cfg x - x.buf.length)).length = stride cfg x := by
    rw [List.length_append, List.length_take]; omega
  obtain ⟨f4, h, habsorb⟩ := absorb_eq cfg x (x.buf ++ m.take (stride cfg x - x.buf.length))
  refine ⟨f4, h, ?_⟩
  simp only [topUp, if_neg hne, htake, if_pos hfull, habsorb, List.drop_append, List.drop_of_length_le hshort.le,
    List.nil_append]

/-- Dropping one stride and then what whole strides are left drops the whole strides. -/
theorem drop_strides {α : Type} {S : Nat} {l : List α} (hS : 0 < S) (h : S ≤ l.length) :
    (l.drop S).drop ((l.drop S).length / S * S) = l.drop (l.length / S * S) := by
  rw [List.drop_drop, List.length_drop, Nat.div_eq_sub_div hS h, Nat.succ_mul, Nat.add_comm]

/-- R332, R42: UPDATE of a context whose buffer is shorter than the stride. With its running state left open, the
context that UPDATE leaves. -/
theorem updateContext_eq (hshort : x.buf.length < stride cfg x) :
    ∃ f4 h, updateContext cfg x m = { x with
      life := .absorbing
      f4 := f4
      h := h
      buf := (x.buf ++ m).drop ((x.buf ++ m).length / stride cfg x * stride cfg x)
      count := countUp x.alg x.count m.length } := by
  by_cases hne : x.buf = []
  · obtain ⟨f4, h, hbulk⟩ := absorbBulk_eq cfg x m
    exact ⟨f4, h, by simp only [updateContext, topUp_of_empty hne, hbulk, hne, List.nil_append]⟩
  by_cases hlt : (x.buf ++ m).length < stride cfg x
  · obtain ⟨f4, h, hbulk⟩ := absorbBulk_eq cfg { x with buf := x.buf ++ m } []
    exact ⟨f4, h, by simp only [updateContext, topUp_of_short hne hlt, hbulk, Nat.div_eq_of_lt hlt, Nat.zero_mul,
      List.drop_nil, List.append_nil, List.drop_zero]⟩
  · have hle := Nat.le_of_not_lt hlt
    obtain ⟨f4', h', htop⟩ := topUp_of_full hne hshort hle
    obtain ⟨f4, h, hbulk⟩ := absorbBulk_eq cfg { x with f4 := f4', h := h', buf := [] } ((x.buf ++ m).drop (stride cfg x))
    refine ⟨f4, h, ?_⟩
    simp only [updateContext, htop, hbulk, List.nil_append, ← drop_strides (stride_pos cfg x) hle]
    rfl

/-! What those equations say of the fields that the count law reads. -/

theorem updateContext_alg (hshort : x.buf.length < stride cfg x) : (updateContext cfg x m).alg = x.alg := by
  obtain ⟨f4, h, heq⟩ := updateContext_eq (m := m) hshort
  rw [heq]

theorem updateContext_count (hshort : x.buf.length < stride cfg x) :
    (updateContext cfg x m).count = countUp x.alg x.count m.length := by
  obtain ⟨f4, h, heq⟩ := updateContext_eq (m := m) hshort
  rw [heq]

theorem updateContext_stride (hshort : x.buf.length < stride cfg x) :
    stride cfg (updateContext cfg x m) = stride cfg x := by
  obtain ⟨f4, h, heq⟩ := updateContext_eq (m := m) hshort
  rw [heq]
  rfl

/-- R42: BUFLEN after UPDATE. -/
theorem updateContext_buf_length (hshort : x.buf.length < stride cfg x) :
    (updateContext cfg x m).buf.length = (x.buf.length + m.length) % stride cfg x := by
  obtain ⟨f4, h, heq⟩ := updateContext_eq (m := m) hshort
  rw [heq, List.length_drop, ← Nat.mod_eq_sub_div_mul, List.length_append]

/-! ### COUNT -/

theorem byteCount_fletcher (h : x.alg = .fletcher4) : byteCount x = x.count.toNat := by simp only [byteCount, h]

theorem byteCount_sha (h : x.alg = .sha256) : byteCount x = x.count.toNat / 8 := by simp only [byteCount, h]

/-- R40, R217: a Fletcher4 COUNT, which wraps at 2^64, counts the new bytes modulo the stride. -/
theorem countUp_fletcher_mod {d : Nat} (hd : d ∣ 2 ^ 64) (count : DWord) (n : Nat) :
    (countUp .fletcher4 count n).toNat % d = (count.toNat + n) % d := by
  rw [countUp, BitVec.toNat_add, BitVec.toNat_ofNat, Nat.mod_mod_of_dvd _ hd, Nat.add_mod, Nat.mod_mod_of_dvd _ hd,
    ← Nat.add_mod]

/-- R40, R261, R267: a SHA-256 COUNT of whole bytes, which counts bits and wraps at 2^64, stays one of whole bytes and
counts the new bytes modulo the block. -/
theorem countUp_sha_mod {count : DWord} (hbytes : count.toNat % 8 = 0) (n : Nat) :
    (countUp .sha256 count n).toNat % 8 = 0
      ∧ (countUp .sha256 count n).toNat / 8 % 64 = (count.toNat / 8 + n) % 64 := by
  rw [countUp, BitVec.toNat_add, BitVec.toNat_ofNat]
  omega

end Sys2Proof.Machine
end

section
/-! The invariants of a run. A predicate of contexts that reset, INIT, UPDATE and FINALIZE keep holds of every context
after every step; the machine's invariant is such a predicate with three facts about framing, cache and port. -/

namespace Sys2Proof.Machine

/-! ### Predicates of one context -/

/-- `P` holds of a context after reset, and whatever a command writes to a context has it if the context had. -/
structure ContextInvariant (cfg : Config) (P : Context → Prop) : Prop where
  reset : P Context.reset
  effect : ∀ {x y : Context}, P x → ContextEffect cfg x y → P y

namespace ContextInvariant
variable {P : Context → Prop} {s t u : State}

theorem ofCommand {i : Instr} (hP : ContextInvariant s.cfg P) (hs : ∀ x ∈ s.ctxs, P x) (h : CommandEffect i s u) :
    ∀ y ∈ u.ctxs, P y := fun _ hy =>
  (h.mem_ctxs hy).elim (hs _) fun ⟨_, hx, heffect⟩ => hP.effect (hs _ hx) heffect

/-- Every step keeps it of every context. -/
theorem ofStep (hP : ContextInvariant s.cfg P) (hs : ∀ x ∈ s.ctxs, P x) (h : StepEffect s t) : ∀ y ∈ t.ctxs, P y := by
  cases h with
  | reset => exact fun y hy => resetCore_ctxs_mem _ hy ▸ hP.reset
  | around => exact hs
  | stored => exact hs
  | @ran ts w rest _ _ _ _ _ _ heffect _ =>
    have hu := ofCommand (s := tookWord ts w rest s) hP hs heffect
    exact hu

end ContextInvariant

/-- R462: no step changes a parameter. -/
theorem StepEffect.cfg_eq {s t : State} (h : StepEffect s t) : t.cfg = s.cfg := by
  cases h with
  | reset => rfl
  | around => rfl
  | stored => rfl
  | ran _ _ _ _ heffect =>
    obtain ⟨-, hcfg, -⟩ := heffect.frame
    exact hcfg

/-! ### The context's invariant -/

theorem contextOk_reset (cfg : Config) : ContextOk cfg Context.reset where
  bufShort := stride_pos ..
  unboundReset _ := rfl
  boundServes h := absurd rfl h
  shaLittle _ := rfl
  freshInitial h := nomatch h
  finalEmpty _ := rfl

theorem contextOk_initialContext {cfg : Config} {alg : Alg} {bo : ByteOrder} {k : KernelId} (warn : Bool)
    (hserves : serves cfg.kernelTable alg k = true) (hlittle : alg = .sha256 → bo = .little) :
    ContextOk cfg (initialContext alg bo k warn) where
  bufShort := stride_pos ..
  unboundReset h := nomatch h
  boundServes _ := hserves
  shaLittle := hlittle
  freshInitial _ := ⟨rfl, rfl, rfl, rfl⟩
  finalEmpty h := nomatch h

section
variable {cfg : Config} {x : Context}

theorem not_unbound_of_live (h : x.life = .fresh ∨ x.life = .absorbing) : x.life ≠ .unbound := by
  rcases h with h | h <;> simp [h]

/-- R39, R332: the buffer UPDATE leaves is a remainder by the stride, and the binding is the one INIT made. -/
theorem contextOk_updateContext (m : List Byte) (hlive : x.life = .fresh ∨ x.life = .absorbing)
    (hx : ContextOk cfg x) : ContextOk cfg (updateContext cfg x m) := by
  have hlength := updateContext_buf_length (m := m) hx.bufShort
  obtain ⟨f4, h, heq⟩ := updateContext_eq (m := m) hx.bufShort
  rw [heq] at hlength ⊢
  exact {
    bufShort := hlength.trans_lt (Nat.mod_lt _ (stride_pos cfg x))
    unboundReset := nofun
    boundServes := fun _ => hx.boundServes (not_unbound_of_live hlive)
    shaLittle := hx.shaLittle
    freshInitial := nofun
    finalEmpty := nofun }

theorem contextOk_consume (f4 : Quad) (h : Octet) (hlive : x.life = .fresh ∨ x.life = .absorbing)
    (hx : ContextOk cfg x) : ContextOk cfg { consume x with f4 := f4, h := h } where
  bufShort := stride_pos ..
  unboundReset h := nomatch h
  boundServes _ := hx.boundServes (not_unbound_of_live hlive)
  shaLittle := hx.shaLittle
  freshInitial h := nomatch h
  finalEmpty _ := rfl

theorem contextOk_invariant (cfg : Config) : ContextInvariant cfg (ContextOk cfg) where
  reset := contextOk_reset cfg
  effect hx h := by
    cases h with
    | init warn hserves hlittle => exact contextOk_initialContext warn hserves hlittle
    | update m hlive => exact contextOk_updateContext m hlive hx
    | finalize f4 h hlive => exact contextOk_consume f4 h hlive hx

/-! ### BUFLEN and COUNT -/

theorem countOk_initialContext (cfg : Config) (alg : Alg) (bo : ByteOrder) (k : KernelId) (warn : Bool) :
    CountOk cfg (initialContext alg bo k warn) := fun _ => by
  cases alg <;> simp [initialContext, byteCount]

/-- R42, R216: UPDATE adds as many bytes to COUNT as to the message, so the remainder of either by the stride is the
same. -/
theorem countOk_updateContext (m : List Byte) (hlive : x.life = .fresh ∨ x.life = .absorbing)
    (hshort : x.buf.length < stride cfg x) (hx : CountOk cfg x) : CountOk cfg (updateContext cfg x m) := by
  intro _
  obtain ⟨hbuf, hbytes⟩ := hx hlive
  have halg' : (updateContext cfg x m).alg = x.alg := updateContext_alg hshort
  rw [updateContext_stride hshort, updateContext_buf_length hshort, hbuf, Nat.mod_add_mod, updateContext_count hshort]
  cases halg : x.alg with
  | fletcher4 =>
    rw [halg] at halg'
    rw [byteCount_fletcher halg, byteCount_fletcher halg', updateContext_count hshort, halg, halg']
    exact ⟨(countUp_fletcher_mod (stride_dvd cfg x) x.count m.length).symm, nofun⟩
  | sha256 =>
    rw [halg] at halg'
    obtain ⟨hbytes', hcount⟩ := countUp_sha_mod (hbytes halg) m.length
    rw [byteCount_sha halg, byteCount_sha halg', updateContext_count hshort, halg, stride_sha halg]
    exact ⟨hcount.symm, fun _ => hbytes'⟩

/-- With the buffer shorter than the stride, which UPDATE needs, it is a predicate that every command keeps. -/
theorem countOk_invariant (cfg : Config) : ContextInvariant cfg fun x => ContextOk cfg x ∧ CountOk cfg x where
  reset := ⟨contextOk_reset cfg, by simp [CountOk, Context.reset]⟩
  effect := by
    rintro x y ⟨hok, hcount⟩ h
    refine ⟨(contextOk_invariant cfg).effect hok h, ?_⟩
    cases h with
    | init warn => exact countOk_initialContext cfg _ _ _ warn
    | update m hlive => exact countOk_updateContext m hlive hok.bufShort hcount
    | finalize => simp [CountOk, consume]

end

/-- Settles O60: whatever a step writes to a context keeps BUFLEN equal to what COUNT leaves. -/
theorem stepKeepsCount : Obligations.StepKeepsCount := by
  intro s t hinv hcount h x hx
  have heffect := step_effect h
  have hboth := (countOk_invariant s.cfg).ofStep (fun y hy => ⟨hinv.contexts y hy, hcount y hy⟩) heffect x hx
  rw [heffect.cfg_eq]
  exact hboth.2

/-! ### Framing, cache and port -/

/-- R46: a word taken keeps the count of the payload words due and taken. -/
theorem framingOk_frameWord {f : Framing} (h : framingOk f) (w : Word) : framingOk (frameWord f w).1 := by
  cases f with
  | idle =>
    by_cases hwords : payloadWords w = 0
    · rw [frameWord_idle_completes hwords]
      trivial
    · rw [frameWord_idle_opens (Nat.pos_of_ne_zero hwords)]
      have hop : hdrOp w = opUpdate := by
        by_contra hne
        exact hwords (if_neg hne)
      exact ⟨hop, Nat.pos_of_ne_zero hwords, rfl⟩
  | payload hdr due taken =>
    obtain ⟨hop, hdue, hcount⟩ := h
    by_cases hlast : due ≤ 1
    · obtain rfl : due = 1 := by omega
      rw [frameWord_payload_completes]
      trivial
    · rw [frameWord_payload_stores _ _ _ (by omega)]
      exact ⟨hop, by omega, by simp only [List.length_cons]; omega⟩

variable {s t : State}

theorem StepEffect.framed (h : StepEffect s t) (hs : framingOk s.framing) : framingOk t.framing := by
  cases h with
  | reset => trivial
  | around => exact hs
  | stored ts w => exact framingOk_frameWord hs w
  | ran _ _ _ _ heffect =>
    obtain ⟨-, -, hframing, -⟩ := heffect.frame
    rw [respond_framing, hframing]
    exact framingOk_frameWord hs _

/-- R468: a word is taken only where the response fits, and no other step adds to the port. -/
theorem StepEffect.portFits (h : StepEffect s t) (hs : s.respPort.length ≤ s.cfg.respDepth) :
    t.respPort.length ≤ t.cfg.respDepth := by
  rw [h.cfg_eq]
  cases h with
  | reset => exact Nat.zero_le _
  | around _ _ _ _ _ hresp => exact hresp.trans hs
  | stored => exact hs
  | ran _ _ _ _ _ hfits => exact hfits

/-- R45, R301: with the cache empty and every context Unbound, a command either leaves both so or samples. -/
theorem CommandEffect.capsUnread {i : Instr} (h : CommandEffect i s t)
    (hs : s.capsValid = false → s.capsCache = 0 ∧ ∀ x ∈ s.ctxs, x.life = .unbound) :
    t.capsValid = false → t.capsCache = 0 ∧ ∀ x ∈ t.ctxs, x.life = .unbound := by
  intro hempty
  cases h with
  | nothing => exact hs hempty
  | sampled => simp at hempty
  | bound => simp at hempty
  | written _ hx hlive => exact absurd ((hs hempty).2 _ (ctx?_mem hx)) (not_unbound_of_live hlive)

theorem StepEffect.capsUnread (h : StepEffect s t)
    (hs : s.capsValid = false → s.capsCache = 0 ∧ ∀ x ∈ s.ctxs, x.life = .unbound) :
    t.capsValid = false → t.capsCache = 0 ∧ ∀ x ∈ t.ctxs, x.life = .unbound := by
  cases h with
  | reset => exact fun _ => ⟨rfl, fun x hx => by rw [resetCore_ctxs_mem _ hx]; rfl⟩
  | around => exact hs
  | stored => exact hs
  | ran _ _ _ _ heffect => exact heffect.capsUnread hs

/-- Settles O59: each part of the invariant is kept by each of the four steps. -/
theorem stepKeepsInv : Obligations.StepKeepsInv := by
  intro s t hinv h
  have heffect := step_effect h
  refine ⟨?_, heffect.framed hinv.framed, heffect.capsUnread hinv.capsUnread, heffect.portFits hinv.portFits⟩
  rw [heffect.cfg_eq]
  exact (contextOk_invariant s.cfg).ofStep hinv.contexts heffect

/-- Settles O18: the fields that the state after reset is made of, the contexts by number. -/
theorem resetValues : Obligations.ResetValues := ⟨rfl, rfl, rfl, rfl, by decide⟩

/-- Settles O58: after reset every context is as reset left it, and framing, cache and port are empty. -/
theorem invAtReset : Obligations.InvAtReset where
  contexts x hx := List.eq_of_mem_replicate hx ▸ contextOk_reset _
  framed := trivial
  capsUnread _ := ⟨rfl, fun x hx => by rw [List.eq_of_mem_replicate hx]; rfl⟩
  portFits := Nat.zero_le _

end Sys2Proof.Machine
end

section
/-! R31, R339: a command looks at no context but the one it names. Two machines that agree there, on the cache, its
input and the parameters are carried through the operations side by side, each next to the answer it gives. -/

namespace Sys2Proof.Machine

/-- Two results, of machines whose ports hold `port` and `port'`: both go on, with the same context `c`, and append the
same response. -/
def AnswerAlike (c : BitVec 4) (port port' : List Word) (r r' : Result) : Prop :=
  ∃ t t' y rsp, r = .next t ∧ r' = .next t' ∧ t.ctx? c = some y ∧ t'.ctx? c = some y
    ∧ t.respPort = port ++ rsp ∧ t'.respPort = port' ++ rsp

section
variable {s s' : State} {c : BitVec 4} {x : Context}

/-- The one way a command ends: the same answer given in two states that agree on the context. -/
theorem answerAlike_respond (code : Code) (warn : Bool) (op : Byte) (p : List Word) (hs : s.ctx? c = some x)
    (hs' : s'.ctx? c = some x) :
    AnswerAlike c s.respPort s'.respPort (.next (respond code warn op p s)) (.next (respond code warn op p s')) :=
  ⟨_, _, x, _, rfl, rfl, hs, hs', rfl, rfl⟩

/-- An answer after the context is written. -/
theorem answerAlike_write (y : Context) (code : Code) (warn : Bool) (op : Byte) (p : List Word)
    (hs : s.ctx? c = some x) (hs' : s'.ctx? c = some x) :
    AnswerAlike c s.respPort s'.respPort (.next (respond code warn op p (s.setCtx c y)))
      (.next (respond code warn op p (s'.setCtx c y))) :=
  answerAlike_respond code warn op p (setCtx_ctx?_same s c y hs) (setCtx_ctx?_same s' c y hs')

/-- R406: the context check passes in both. -/
theorem answerAlike_onContext {op : Byte} {body body' : Context → Result} (hs : s.ctx? c = some x)
    (hs' : s'.ctx? c = some x) (h : AnswerAlike c s.respPort s'.respPort (body x) (body' x)) :
    AnswerAlike c s.respPort s'.respPort (onContext op c s body) (onContext op c s' body') := by
  rwa [onContext_some hs, onContext_some hs']

/-- R402, R407: the lifecycle checks end alike. -/
theorem answerAlike_onLive {op : Byte} {body body' : Result} (hs : s.ctx? c = some x) (hs' : s'.ctx? c = some x)
    (h : AnswerAlike c s.respPort s'.respPort body body') :
    AnswerAlike c s.respPort s'.respPort (onLive op x s body) (onLive op x s' body') := by
  unfold onLive
  cases x.life with
  | unbound => exact answerAlike_respond _ _ _ _ hs hs'
  | fresh => exact h
  | absorbing => exact h
  | finalised => exact answerAlike_respond _ _ _ _ hs hs'

theorem answerAlike_execInit (alg : Alg) (bo : ByteOrder) (req : ImplReq) (hs : s.ctx? c = some x)
    (hs' : s'.ctx? c = some x) (hcfg : s'.cfg = s.cfg) (hcache : (sampleCaps s').capsCache = (sampleCaps s).capsCache) :
    AnswerAlike c s.respPort s'.respPort (execInit alg bo c req s) (execInit alg bo c req s') := by
  refine answerAlike_onContext hs hs' ?_
  rw [bind_eq, bind_eq, hcfg, hcache, ← sampleCaps_respPort s, ← sampleCaps_respPort s']
  exact answerAlike_write _ _ _ _ _ ((sampleCaps_ctx? s c).trans hs) ((sampleCaps_ctx? s' c).trans hs')

theorem answerAlike_execUpdate (n : BitVec 20) (p : List Word) (hs : s.ctx? c = some x) (hs' : s'.ctx? c = some x)
    (hcfg : s'.cfg = s.cfg) :
    AnswerAlike c s.respPort s'.respPort (execUpdate c n p s) (execUpdate c n p s') := by
  refine answerAlike_onContext hs hs' (answerAlike_onLive hs hs' ?_)
  rw [hcfg]
  exact answerAlike_write _ _ _ _ _ hs hs'

theorem answerAlike_execFinalize (hs : s.ctx? c = some x) (hs' : s'.ctx? c = some x) :
    AnswerAlike c s.respPort s'.respPort (execFinalize c s) (execFinalize c s') := by
  refine answerAlike_onContext hs hs' (answerAlike_onLive hs hs' ?_)
  cases x.alg with
  | fletcher4 =>
    by_cases hwhole : x.buf.length % 4 = 0
    · simp only [if_pos hwhole]
      exact answerAlike_write _ _ _ _ _ hs hs'
    · simp only [if_neg hwhole]
      exact answerAlike_write _ _ _ _ _ hs hs'
  | sha256 => exact answerAlike_write _ _ _ _ _ hs hs'

theorem answerAlike_execStatus (hs : s.ctx? c = some x) (hs' : s'.ctx? c = some x) (hcfg : s'.cfg = s.cfg) :
    AnswerAlike c s.respPort s'.respPort (execStatus c s) (execStatus c s') := by
  refine answerAlike_onContext hs hs' ?_
  rw [hcfg]
  exact answerAlike_respond _ _ _ _ hs hs'

end

/-- Settles O44: the operations of each command that names a context answer alike. -/
theorem commandReadsOnlyItsContext : Obligations.CommandReadsOnlyItsContext := by
  intro i s s' c x hnamed hs hs' hcfg hvalid hcache hin
  have hsample : (sampleCaps s').capsCache = (sampleCaps s).capsCache := by
    simp [hvalid, hcache, hin]
  change AnswerAlike c s.respPort s'.respPort (exec i s) (exec i s')
  cases i with
  | initF4Le d req => cases hnamed; exact answerAlike_execInit _ _ req hs hs' hcfg hsample
  | initF4Be d req => cases hnamed; exact answerAlike_execInit _ _ req hs hs' hcfg hsample
  | initSha256 d req => cases hnamed; exact answerAlike_execInit _ _ req hs hs' hcfg hsample
  | update d n p => cases hnamed; exact answerAlike_execUpdate n p hs hs' hcfg
  | finalize d => cases hnamed; exact answerAlike_execFinalize hs hs'
  | status d => cases hnamed; exact answerAlike_execStatus hs hs' hcfg
  | caps => cases hnamed
  | illegal op => cases hnamed

end Sys2Proof.Machine
end

section
/-! The status words (R49, R50) field by field: what each operand of a chain of `++` is when it is read back. -/

namespace Sys2Proof.Machine

/-! ### CTXSTAT -/

/-- The fields of R49, lowest first, read from the word that is made of them. -/
theorem ctxStat_fields (cfg : Config) (x : Context) :
    (ctxStat cfg x).extractLsb' 0 2 = lifeBits x.life
    ∧ (ctxStat cfg x).extractLsb' 2 1 = algBit x.alg
    ∧ (ctxStat cfg x).extractLsb' 3 1 = boBit x.bo
    ∧ (ctxStat cfg x).extractLsb' 4 4 = implBits x.impl
    ∧ (ctxStat cfg x).extractLsb' 8 4 = lanesField cfg x
    ∧ (ctxStat cfg x).extractLsb' 12 1 = BitVec.ofBool (needsFpu x)
    ∧ (ctxStat cfg x).extractLsb' 13 1 = BitVec.ofBool x.warn
    ∧ (ctxStat cfg x).extractLsb' 14 2 = 0#2
    ∧ (ctxStat cfg x).extractLsb' 16 7 = BitVec.ofNat 7 x.buf.length
    ∧ (ctxStat cfg x).extractLsb' 23 9 = 0#9 := by
  unfold ctxStat
  refine ⟨?life, ?alg, ?bo, ?impl, ?lanes, ?fpu, ?warn, ?reserved, ?buflen, ?top⟩
    <;> repeat rw [BitVec.extractLsb'_append_eq_of_le (by decide)]
  case top => exact BitVec.extractLsb'_eq_self
  all_goals exact (BitVec.extractLsb'_append_eq_of_add_le (by decide)).trans BitVec.extractLsb'_eq_self

/-- R6: K fits the four bits of LANES. -/
theorem laneCount_lt (k : Lanes) : laneCount k < 16 := by cases k <;> decide

/-- R49, LANES as a number. -/
theorem lanesField_toNat (cfg : Config) (x : Context) :
    (lanesField cfg x).toNat
      = if x.alg = .fletcher4 ∧ x.life ≠ .unbound then laneCount (lanesOf cfg x) else 0 := by
  unfold lanesField
  split
  next => exact (BitVec.toNat_ofNat ..).trans (Nat.mod_eq_of_lt (laneCount_lt _))
  next => rfl

theorem needsFpu_iff (x : Context) : needsFpu x = true ↔ x.life ≠ .unbound ∧ x.impl ≠ some .scalar := by
  simp only [needsFpu, Bool.and_eq_true, bne_iff_ne]

/-- R312, NEEDS_FPU as a bit. -/
theorem ofBool_needsFpu (x : Context) :
    BitVec.ofBool (needsFpu x) = if x.life ≠ .unbound ∧ x.impl ≠ some .scalar then 1#1 else 0#1 := by
  simp only [← needsFpu_iff]
  cases needsFpu x <;> rfl

/-- R303: K of a kernel of the default table, as it is printed there. -/
theorem laneCount_lanesOf_default {cfg : Config} {x : Context} (htable : cfg.kernelTable = defaultKernelTable)
    {k : KernelId} {n : Nat}
    (hk : (k, n) ∈ [(KernelId.scalar, 1), (.simd128x2, 2), (.simd128x4, 4), (.simd256x4, 4), (.simd256x8, 8),
      (.simd512x8, 8)]) (himpl : x.impl = some k) : laneCount (lanesOf cfg x) = n := by
  simp only [lanesOf, himpl, htable]
  cases k <;> simp at hk <;> exact hk.symm

/-- Settles O39: the fields of CTXSTAT with the values of R32 to R35, and K of the default table in LANES and stride. -/
theorem ctxStatFields : Obligations.CtxStatFields := by
  intro cfg x hbuf
  obtain ⟨hlife, halg, hbo, himpl, hlanes, hfpu, hwarn, hreserved, hbuflen, htop⟩ := ctxStat_fields cfg x
  rw [hlife, halg, hbo, himpl, hlanes, hfpu, hwarn, hreserved, hbuflen, htop, lanesField_toNat, ofBool_needsFpu]
  refine ⟨?_, ?_, ?_, ?_, rfl, rfl, ?_, rfl, ?_, rfl, stride_sha, fun htable hf k n hk hi => ?_⟩
  · cases x.life <;> rfl
  · cases x.alg <;> rfl
  · cases x.bo <;> rfl
  · rcases x.impl with _ | k
    · rfl
    · cases k <;> rfl
  · cases x.warn <;> rfl
  · exact (BitVec.toNat_ofNat ..).trans (Nat.mod_eq_of_lt (by omega))
  · have hn := laneCount_lanesOf_default htable hk hi
    exact ⟨by rw [stride_fletcher hf, hn], fun hbound => by rw [if_pos ⟨hf, hbound⟩, hn]⟩

/-! ### The words of CAPS -/

/-- R50, R302: bit number of a kernel id says whether the kernel has the property. -/
theorem kernelBits_code (p : KernelId → Bool) (k : KernelId) : (kernelBits p).getLsbD k.code.toNat = p k := by
  unfold kernelBits
  cases k <;> simp only [KernelId.code, BitVec.getLsbD_append, BitVec.getLsbD_ofBool] <;> simp

theorem kernelBits_zero (p : KernelId → Bool) : (kernelBits p).getLsbD 0 = false := by
  unfold kernelBits
  exact BitVec.getLsbD_append

theorem code_lt (k : KernelId) : k.code.toNat < 8 := by cases k <;> decide

/-- R302: every number from 1 to 7 is a kernel's. -/
theorem exists_code_eq {i : Nat} (h0 : 0 < i) (h8 : i < 8) : ∃ k : KernelId, k.code.toNat = i := by
  have hall : ∀ j : Fin 8, 0 < j.val → ∃ k ∈ [KernelId.scalar, .simd128x2, .simd128x4, .simd256x4, .simd256x8,
      .simd512x8, .shaNative], k.code.toNat = j.val := by decide
  obtain ⟨k, -, hk⟩ := hall ⟨i, h8⟩ h0
  exact ⟨k, hk⟩

section
variable (s : State)

theorem getLsbD_capsWord (i : Nat) : (capsWord s).getLsbD i = (decide (i ≤ 6) && s.capsCache.getLsbD i) := by
  refine (BitVec.getLsbD_append (x := 0#25) (y := s.capsCache)).trans ?_
  by_cases h : i < 7
  · simp [h, Nat.le_of_lt_succ h]
  · have hhigh : ¬ i ≤ 6 := by omega
    simp [h, hhigh]

theorem getLsbD_validWord (i : Nat) :
    (validWord s).getLsbD i = if i < 8 then (kernelBits (builtIn s.cfg)).getLsbD i else false := by
  refine (BitVec.getLsbD_append (x := 0#24) (y := kernelBits (builtIn s.cfg))).trans ?_
  simp

theorem getLsbD_availWord (i : Nat) : (availWord s).getLsbD i =
    if i < 8 then (kernelBits (avail s.cfg s.capsCache .fletcher4)).getLsbD i
    else if i - 8 < 8 then (kernelBits (avail s.cfg s.capsCache .sha256)).getLsbD (i - 8) else false := by
  refine (BitVec.getLsbD_append (x := 0#16 ++ kernelBits _) (y := kernelBits _)).trans ?_
  rw [BitVec.getLsbD_append]
  simp

end

/-- R304: scalar is built in, and the others where VALIDATED_MASK says so. -/
theorem builtIn_eq (cfg : Config) (k : KernelId) :
    builtIn cfg k = (decide (k = .scalar) || cfg.validatedMask.getLsbD (k.code.toNat - 1)) := by
  cases k <;> rfl

/-- Settles O40: the bits of the three words, through the numbers of the kernels. -/
theorem capsWordBits : Obligations.CapsWordBits := by
  refine fun s => ⟨fun i _ => getLsbD_capsWord s i, fun i _ hi => ?_, fun k => ?_, fun k => ⟨?_, ?_⟩, ?_, ?_,
    fun i hi _ => ?_⟩
  · rw [getLsbD_validWord]
    split
    next h8 =>
      rcases Nat.eq_zero_or_pos i with rfl | h0
      · exact kernelBits_zero _
      · obtain ⟨k, hk⟩ := exists_code_eq h0 h8
        exact absurd hk (hi k)
    next => rfl
  · rw [getLsbD_validWord, if_pos (code_lt k), kernelBits_code, builtIn_eq]
  · rw [getLsbD_availWord, if_pos (code_lt k), kernelBits_code]
  · rw [getLsbD_availWord, if_neg (by omega), Nat.add_sub_cancel_left, if_pos (code_lt k), kernelBits_code]
  · rw [getLsbD_availWord, if_pos (by decide), kernelBits_zero]
  · rw [getLsbD_availWord, if_neg (by decide), if_pos (by decide), kernelBits_zero]
  · rw [getLsbD_availWord, if_neg (by omega), if_neg (by omega)]

end Sys2Proof.Machine
end

section
/-! The two ports of spec/20_memory.md and what they carry: bytes in payload words, words in message bytes, and response
words that only ever leave through the host's reads. -/

namespace Sys2Proof.Machine

/-! ### Bytes of payload words (R83, R84) -/

/-- R83: byte `k` of one payload word. -/
theorem wordBytes_getElem? (w : Word) {k : Nat} (hk : k < 4) :
    (wordBytes w)[k]? = some (w.extractLsb' (8 * k) 8) := by
  match k, hk with
  | 0, _ => rfl
  | 1, _ => rfl
  | 2, _ => rfl
  | 3, _ => rfl

/-- R83: byte `k` of a list of payload words stands in word ⌊k/4⌋, where there is one. -/
theorem flatMap_wordBytes_getElem? (p : List Word) (k : Nat) :
    (p.flatMap wordBytes)[k]? = p[k / 4]?.map fun w => w.extractLsb' (8 * (k % 4)) 8 := by
  induction p generalizing k with
  | nil => rfl
  | cons w p ih =>
    rw [List.flatMap_cons]
    rcases Nat.lt_or_ge k 4 with hk | hk
    · rw [List.getElem?_append_left hk, wordBytes_getElem? w hk, Nat.div_eq_of_lt hk, Nat.mod_eq_of_lt hk]
      rfl
    · obtain ⟨j, rfl⟩ := Nat.exists_eq_add_of_le' hk
      rw [List.getElem?_append_right hk, wordBytes_length, Nat.add_sub_cancel, ih, Nat.add_mod_right,
        Nat.add_div_right _ (by decide), List.getElem?_cons_succ]

/-- Settles O15: below its byte count a payload is the bytes of its words. -/
theorem payloadBytesArePacked : Obligations.PayloadBytesArePacked := by
  refine fun n p hn => ⟨payloadBytes_length hn, fun k w hk hw => ?_⟩
  rw [payloadBytes, List.getElem?_take_of_lt hk, flatMap_wordBytes_getElem?, hw, Option.map_some]

/-- Two words that agree below bit 8r have their first `r` bytes in common. -/
theorem wordBytes_take_eq {r : Nat} {w v : Word} (hr : r ≤ 4) (h : ∀ k, k < 8 * r → w.getLsbD k = v.getLsbD k) :
    (wordBytes w).take r = (wordBytes v).take r := by
  refine List.ext_getElem? fun k => ?_
  rcases Nat.lt_or_ge k r with hk | hk
  · rw [List.getElem?_take_of_lt hk, List.getElem?_take_of_lt hk, wordBytes_getElem? w (by omega),
      wordBytes_getElem? v (by omega)]
    refine congrArg some (BitVec.eq_of_getLsbD_eq fun i hi => ?_)
    rw [BitVec.getLsbD_extractLsb', BitVec.getLsbD_extractLsb', h _ (by omega)]
  · rw [List.getElem?_take_eq_none hk, List.getElem?_take_eq_none hk]

/-- R84: after ⌊n/4⌋ whole words, a payload of `n` bytes takes the first n mod 4 bytes of its last word. -/
theorem payloadBytes_concat {n : Nat} {p : List Word} (hp : p.length = n / 4) (w : Word) :
    payloadBytes n (p ++ [w]) = p.flatMap wordBytes ++ (wordBytes w).take (n % 4) := by
  have hlen : n = (p.flatMap wordBytes).length + n % 4 := by
    rw [flatMap_wordBytes_length, hp, Nat.div_add_mod]
  rw [payloadBytes, List.flatMap_append, List.flatMap_singleton, hlen, List.take_length_add_append, ← hlen]

/-- UPDATE reads its payload words only through the payload bytes. -/
theorem exec_update_congr {n : BitVec 20} {p p' : List Word} (h : payloadBytes n.toNat p = payloadBytes n.toNat p')
    (c : BitVec 4) (s : State) : exec (.update c n p) s = exec (.update c n p') s := by
  simp only [exec, execUpdate, h]

/-- Settles O16: the pad bits are in no byte that the payload takes from its last word. -/
theorem padBitsIgnored : Obligations.PadBitsIgnored := by
  refine fun s c n p w v _ hp hbits => ⟨exec_update_congr ?_ c s, rfl⟩
  rw [payloadBytes_concat hp, payloadBytes_concat hp, wordBytes_take_eq (Nat.mod_lt _ (by decide)).le hbits]

/-! ### Words of message bytes (R86, R201) -/

/-- One more byte below a value moves the value up by 8 bits. -/
theorem setWidth_append_byte {n : Nat} (x : BitVec n) (b : Byte) :
    (x ++ b).setWidth 32 = b.setWidth 32 ||| (x.setWidth 32 <<< 8) := by
  refine BitVec.eq_of_getLsbD_eq fun i hi => ?_
  simp only [BitVec.getLsbD_setWidth, BitVec.getLsbD_append, BitVec.getLsbD_or, BitVec.getLsbD_shiftLeft, hi]
  by_cases h8 : i < 8
  · simp [h8]
  · simp [h8, BitVec.getLsbD_of_ge b i (Nat.le_of_not_lt h8), show i - 8 < 32 by omega]

/-- R86: four bytes side by side, the first one lowest, are their shifts put together. -/
theorem decodeLE_eq_shifts (b0 b1 b2 b3 : Byte) :
    decodeLE b0 b1 b2 b3
      = b0.setWidth 32 ||| (b1.setWidth 32 <<< 8) ||| (b2.setWidth 32 <<< 16) ||| (b3.setWidth 32 <<< 24) := by
  calc decodeLE b0 b1 b2 b3
      = (b3 ++ b2 ++ b1 ++ b0).setWidth 32 := (BitVec.setWidth_eq _).symm
    _ = b0.setWidth 32 ||| ((b1.setWidth 32 ||| ((b2.setWidth 32 ||| (b3.setWidth 32 <<< 8)) <<< 8)) <<< 8) := by
        rw [setWidth_append_byte, setWidth_append_byte, setWidth_append_byte]
    _ = _ := by simp only [BitVec.shiftLeft_or_distrib, ← BitVec.shiftLeft_add, Nat.reduceAdd, BitVec.or_assoc]

/-- R86: the first byte highest is the first byte lowest of the bytes in the other order. -/
theorem decodeBE_eq_decodeLE (b0 b1 b2 b3 : Byte) : decodeBE b0 b1 b2 b3 = decodeLE b3 b2 b1 b0 := rfl

/-- R201: the word after `pre` whole words of a message. -/
theorem wordsOf_getElem? (bo : ByteOrder) (b0 b1 b2 b3 : Byte) {pre : List Byte} (post : List Byte)
    (h : pre.length % 4 = 0) :
    (wordsOf bo (pre ++ b0 :: b1 :: b2 :: b3 :: post))[pre.length / 4]? = some (decodeWord bo b0 b1 b2 b3) := by
  have hwords := wordsOf_length bo _ pre rfl
  rw [wordsOf_append bo _ _ pre (Nat.mul_div_cancel' (Nat.dvd_of_mod_eq_zero h)).symm,
    List.getElem?_append_right hwords.le, hwords, Nat.sub_self]
  rfl

/-- Settles O17: a word position by the lemma above, both byte orders by the shifts of `decodeLE`. -/
theorem wordDecodingByByteOrder : Obligations.WordDecodingByByteOrder := by
  refine fun b0 b1 b2 b3 => ⟨fun bo pre post h => wordsOf_getElem? bo b0 b1 b2 b3 post h,
    decodeLE_eq_shifts b0 b1 b2 b3, ?_⟩
  have hreverse (w x y z : Word) : w ||| x ||| y ||| z = z ||| y ||| x ||| w := by ac_rfl
  rw [decodeWord, decodeBE_eq_decodeLE, decodeLE_eq_shifts, hreverse]

/-! ### The digest in the response (R89) -/

/-- R121: the status word of a FINALIZE that answers a digest. -/
theorem rspWord_digest : rspWord .ok false opFinalize 8 = 0x00038000#32 := by decide

/-- Settles O33: the whole-word end of FINALIZE, with its answer written out. -/
theorem finalizeFletcher : Obligations.FinalizeFletcher := by
  intro s c x hx hlive halg hbuf
  refine ⟨_, rfl, ?_⟩
  have hexec := execFinalize_live hx hlive
  rw [halg] at hexec
  rw [← rspWord_digest]
  exact hexec.trans (if_pos hbuf)

/-! ### The response port (R82) -/

/-- R82: no turn but a reset loses a response word; a read moves the oldest one to the host. -/
theorem nextCommand_responses {s : State} (h : s.turns.head? ≠ some .reset) :
    (nextCommand s).1.responses = s.responses := by
  have hcore {ts : List Turn} (hturns : (s.turns = [] ∧ ts = []) ∨ s.turns = .core :: ts) :
      (nextCommand s).1.responses = s.responses := by
    rw [nextCommand_core hturns]
    rcases takeWord_cases { s with turns := ts } with ⟨htake, -⟩ | ⟨w, rest, -, -, htake⟩ <;> rw [htake] <;> rfl
  match hturns : s.turns with
  | [] => exact hcore (.inl ⟨hturns, rfl⟩)
  | .core :: ts => exact hcore (.inr hturns)
  | .write w :: ts => rw [nextCommand_write hturns]; rfl
  | .read :: ts =>
    rw [nextCommand_read hturns, hostRead_eq]
    cases hport : s.respPort <;> simp [State.responses, hport]
  | .setCaps v :: ts => rw [nextCommand_setCaps hturns]; rfl
  | .reset :: ts => simp [hturns] at h

/-- R82: a command appends its response to those given so far. -/
theorem exec_responses {i : Instr} {s t : State} (h : exec i s = .next t) : ∃ r, t.responses = s.responses ++ r := by
  obtain ⟨u, code, warn, op, p, heffect, rfl⟩ := exec_effect h
  obtain ⟨-, -, -, -, -, hport, hgot, -⟩ := heffect.frame
  refine ⟨rspWord code warn op p.length :: p, ?_⟩
  rw [State.responses, State.responses, respond_respPort, respond_hostGot, hport, hgot, List.append_assoc]

/-- Settles O13: a step is a turn that keeps the responses, and at most one command that appends to them. -/
theorem responsesOnlyAppend : Obligations.ResponsesOnlyAppend := by
  intro s t h hreset
  have hturn := nextCommand_responses hreset
  rcases hnext : nextCommand s with ⟨u, _ | i⟩ <;> rw [hnext] at hturn
  · obtain rfl := Host.Outcome.next.inj (h.symm.trans (step_of_nextCommand_none hnext))
    exact ⟨[], by rw [List.append_nil]; exact hturn⟩
  · obtain ⟨r, hr⟩ := exec_responses ((step_of_nextCommand_some hnext).symm.trans h)
    exact ⟨r, hr.trans (congrArg (· ++ r) hturn)⟩

end Sys2Proof.Machine
end

section
/-! Header words as their fields (R111 to R115), and the rows of the opcode table (R118, R119) as conditions on those
fields: what the decoder makes of a header is read off once, and the laws of the encoding follow from it. -/

namespace Sys2Proof

/-! ### A header word is its fields -/

section
variable (w v mask : Word)

/-- R112, R114, R115: OPERAND, CTX and OP side by side are the whole word. -/
theorem encodePlain_fields : encodePlain (hdrOperand w) (hdrCtx w) (hdrOp w) = w := by
  have hhigh : hdrOperand w ++ hdrCtx w = w.extractLsb' 8 24 := BitVec.extractLsb'_append_extractLsb'_eq_extractLsb' rfl
  have hword : w.extractLsb' 8 24 ++ hdrOp w = w.extractLsb' 0 32 :=
    BitVec.extractLsb'_append_extractLsb'_eq_extractLsb' rfl
  rw [encodePlain, hhigh, hword, BitVec.extractLsb'_eq_self]

/-- R113: OPERAND of a header of format I. -/
theorem hdrOperand_eq_init_fields : hdrOperand w = hdrReservedI w ++ hdrImpl w ++ hdrBo w ++ hdrAlg w := by
  have himpl : hdrReservedI w ++ hdrImpl w = w.extractLsb' 14 18 :=
    BitVec.extractLsb'_append_extractLsb'_eq_extractLsb' rfl
  have hbo : w.extractLsb' 14 18 ++ hdrBo w = w.extractLsb' 13 19 :=
    BitVec.extractLsb'_append_extractLsb'_eq_extractLsb' rfl
  have halg : w.extractLsb' 13 19 ++ hdrAlg w = w.extractLsb' 12 20 :=
    BitVec.extractLsb'_append_extractLsb'_eq_extractLsb' rfl
  rw [himpl, hbo, halg, hdrOperand]

variable {w v mask}

/-- Two words are equal when their fields of formats N, U and C are. -/
theorem word_eq_iff_plain :
    w = v ↔ hdrOperand w = hdrOperand v ∧ hdrCtx w = hdrCtx v ∧ hdrOp w = hdrOp v := by
  refine ⟨fun h => h ▸ ⟨rfl, rfl, rfl⟩, fun ⟨hoperand, hctx, hop⟩ => ?_⟩
  rw [← encodePlain_fields w, hoperand, hctx, hop, encodePlain_fields]

/-- Two words are equal when their fields of format I are. -/
theorem word_eq_iff_init :
    w = v ↔ hdrReservedI w = hdrReservedI v ∧ hdrImpl w = hdrImpl v ∧ hdrBo w = hdrBo v ∧ hdrAlg w = hdrAlg v
      ∧ hdrCtx w = hdrCtx v ∧ hdrOp w = hdrOp v := by
  refine ⟨fun h => h ▸ ⟨rfl, rfl, rfl, rfl, rfl, rfl⟩, fun ⟨hres, himpl, hbo, halg, hctx, hop⟩ => ?_⟩
  refine word_eq_iff_plain.2 ⟨?_, hctx, hop⟩
  rw [hdrOperand_eq_init_fields, hres, himpl, hbo, halg, ← hdrOperand_eq_init_fields]

/-- A masked word, field by field, in formats N, U and C. -/
theorem and_eq_iff_plain :
    w &&& mask = v ↔ hdrOperand w &&& hdrOperand mask = hdrOperand v ∧ hdrCtx w &&& hdrCtx mask = hdrCtx v
      ∧ hdrOp w &&& hdrOp mask = hdrOp v := by
  simp only [word_eq_iff_plain, hdrOperand, hdrCtx, hdrOp, BitVec.extractLsb'_and]

/-- A masked word, field by field, in format I. -/
theorem and_eq_iff_init :
    w &&& mask = v ↔ hdrReservedI w &&& hdrReservedI mask = hdrReservedI v ∧ hdrImpl w &&& hdrImpl mask = hdrImpl v
      ∧ hdrBo w &&& hdrBo mask = hdrBo v ∧ hdrAlg w &&& hdrAlg mask = hdrAlg v
      ∧ hdrCtx w &&& hdrCtx mask = hdrCtx v ∧ hdrOp w &&& hdrOp mask = hdrOp v := by
  simp only [word_eq_iff_init, hdrReservedI, hdrImpl, hdrBo, hdrAlg, hdrCtx, hdrOp, BitVec.extractLsb'_and]

/-- The reserved bits [31:8] of format C are OPERAND and CTX. -/
theorem reservedC_eq_zero_iff : w.extractLsb' 8 24 = 0#24 ↔ hdrOperand w = 0#20 ∧ hdrCtx w = 0#4 := by
  have hhigh : hdrOperand w ++ hdrCtx w = w.extractLsb' 8 24 := BitVec.extractLsb'_append_extractLsb'_eq_extractLsb' rfl
  rw [← hhigh]
  refine ⟨fun h => ?_, fun ⟨hoperand, hctx⟩ => by rw [hoperand, hctx]; rfl⟩
  have hwords : encodePlain (hdrOperand w) (hdrCtx w) 0#8 = encodePlain 0#20 0#4 0#8 := congrArg (· ++ 0#8) h
  simpa only [word_eq_iff_plain, hdrOperand_encodePlain, hdrCtx_encodePlain, hdrOp_encodePlain, and_true] using hwords

end

/-! ### The rows of the opcode table -/

/-- R119 (a) to (e), on the fields of the header. -/
def IllegalHeader (w : Word) : Prop :=
  hdrOp w ∉ [opInit, opUpdate, opFinalize, opStatus, opCaps]
    ∨ (hdrOp w = opInit ∧ hdrReservedI w ≠ 0#14)
    ∨ (hdrOp w = opInit ∧ hdrAlg w = 1#1 ∧ hdrBo w = 1#1)
    ∨ ((hdrOp w = opFinalize ∨ hdrOp w = opStatus) ∧ hdrOperand w ≠ 0#20)
    ∨ (hdrOp w = opCaps ∧ (hdrOperand w ≠ 0#20 ∨ hdrCtx w ≠ 0#4))

/-- R118 to R120, R125: the command that each row's header makes with the payload `p`, and the illegal headers beside
them. -/
inductive RowDecodes (w : Word) (p : List Word) : Instr → Prop
  | initF4Le (hop : hdrOp w = opInit) (hres : hdrReservedI w = 0#14) (halg : hdrAlg w = 0#1) (hbo : hdrBo w = 0#1) :
      RowDecodes w p (.initF4Le (hdrCtx w) (.ofCode (hdrImpl w)))
  | initF4Be (hop : hdrOp w = opInit) (hres : hdrReservedI w = 0#14) (halg : hdrAlg w = 0#1) (hbo : hdrBo w = 1#1) :
      RowDecodes w p (.initF4Be (hdrCtx w) (.ofCode (hdrImpl w)))
  | initSha256 (hop : hdrOp w = opInit) (hres : hdrReservedI w = 0#14) (halg : hdrAlg w = 1#1) (hbo : hdrBo w = 0#1) :
      RowDecodes w p (.initSha256 (hdrCtx w) (.ofCode (hdrImpl w)))
  | update (hop : hdrOp w = opUpdate) : RowDecodes w p (.update (hdrCtx w) (hdrOperand w) p)
  | finalize (hop : hdrOp w = opFinalize) (hres : hdrOperand w = 0#20) : RowDecodes w p (.finalize (hdrCtx w))
  | status (hop : hdrOp w = opStatus) (hres : hdrOperand w = 0#20) : RowDecodes w p (.status (hdrCtx w))
  | caps (hop : hdrOp w = opCaps) (hres : hdrOperand w = 0#20) (hctx : hdrCtx w = 0#4) : RowDecodes w p .caps
  | illegal (h : IllegalHeader w) : RowDecodes w p (.illegal (hdrOp w))

variable {w : Word} {p : List Word} {i : Instr}

theorem command_of_opInit (hop : hdrOp w = opInit) : command w p = commandInit w := by simp [command, hop]

/-- R119: the decoder answers ILLEGAL on each of the conditions. -/
theorem command_of_illegalHeader (h : IllegalHeader w) : command w p = .illegal (hdrOp w) := by
  rcases h with hop | ⟨hop, hres⟩ | ⟨hop, halg, hbo⟩ | ⟨hop | hop, hres⟩ | ⟨hop, hres | hctx⟩
  · exact Machine.command_of_unknown_op p hop
  · simp [command_of_opInit hop, commandInit, hres]
  · simp [command_of_opInit hop, commandInit, halg, hbo]
  · simp [command, hop, hres]
  · simp [command, hop, hres]
  · simp [command, hop, hres]
  · simp [command, hop, hctx]

theorem RowDecodes.command_eq (h : RowDecodes w p i) : command w p = i := by
  cases h with
  | initF4Le hop hres halg hbo => simp [command_of_opInit hop, commandInit, hres, halg, hbo]
  | initF4Be hop hres halg hbo => simp [command_of_opInit hop, commandInit, hres, halg, hbo]
  | initSha256 hop hres halg hbo => simp [command_of_opInit hop, commandInit, hres, halg, hbo]
  | update hop => simp [command, hop]
  | finalize hop hres => simp [command, hop, hres]
  | status hop hres => simp [command, hop, hres]
  | caps hop hres hctx => simp [command, hop, hres, hctx]
  | illegal h => exact command_of_illegalHeader h

/-- A header is of one row or illegal. -/
theorem exists_rowDecodes (w : Word) (p : List Word) : ∃ i, RowDecodes w p i := by
  by_cases hill : IllegalHeader w
  · exact ⟨_, .illegal hill⟩
  have hlegal := hill
  simp only [IllegalHeader, not_or, not_and, not_not] at hlegal
  obtain ⟨hop, hres, halgbo, hoperand, hcaps⟩ := hlegal
  simp only [List.mem_cons, List.not_mem_nil, or_false] at hop
  rcases hop with hop | hop | hop | hop | hop
  · rcases BitVec.eq_zero_or_eq_one (hdrAlg w) with halg | halg <;>
      rcases BitVec.eq_zero_or_eq_one (hdrBo w) with hbo | hbo
    · exact ⟨_, .initF4Le hop (hres hop) halg hbo⟩
    · exact ⟨_, .initF4Be hop (hres hop) halg hbo⟩
    · exact ⟨_, .initSha256 hop (hres hop) halg hbo⟩
    · exact absurd hbo (halgbo hop halg)
  · exact ⟨_, .update hop⟩
  · exact ⟨_, .finalize hop (hoperand (.inl hop))⟩
  · exact ⟨_, .status hop (hoperand (.inr hop))⟩
  · exact ⟨_, .caps hop (hcaps hop).1 (hcaps hop).2⟩

/-- The decoder answers exactly the command of the header's row. -/
theorem rowDecodes_iff : RowDecodes w p i ↔ command w p = i := by
  refine ⟨RowDecodes.command_eq, fun h => ?_⟩
  obtain ⟨j, hj⟩ := exists_rowDecodes w p
  rwa [← h, hj.command_eq]

theorem rowDecodes_command (w : Word) (p : List Word) : RowDecodes w p (command w p) := rowDecodes_iff.2 rfl

end Sys2Proof
end

section
/-! The encoding obligations (spec/30_encoding.md): the decoder and the encoder invert each other, and each row of the
opcode table is its mask and match. -/

namespace Sys2Proof.Machine

/-! ### Whole commands -/

/-- R110: the decoder reads a header with as many payload words as it announces, and leaves the words after them. -/
theorem decode_cons_append {hdr : Word} {payload : List Word} (h : payload.length = payloadWords hdr)
    (rest : List Word) : decode (hdr :: (payload ++ rest)) = .ok (command hdr payload, rest) := by
  have henough : ¬(payload ++ rest).length < payloadWords hdr := by
    rw [List.length_append, h]
    omega
  rw [decode, if_neg henough, List.take_left' h, List.drop_left' h]

/-- Settles O2: the encoder writes the payload words that its header announces, and header and payload make the
command. -/
theorem decodeInvertsEncode : Obligations.DecodeInvertsEncode := by
  intro i rest hwf
  rw [encode, List.cons_append, decode_cons_append (payload_length_of_wf hwf), command_encode hwf]

/-- Settles O6: a header announces the words that its NBYTES needs, and none where its OP is not UPDATE. -/
theorem headerFixesLength : Obligations.HeaderFixesLength := by
  intro hdr payload rest hupdate hother
  refine decode_cons_append ?_ rest
  rw [payloadWords]
  split
  next hop =>
    obtain ⟨hmin, hmax⟩ := hupdate hop
    rw [payloadLen, hdrOperand]
    omega
  next hop => rw [hother hop, List.length_nil]

/-- Settles O1: each word is of constant fields, which the decoder computes. -/
theorem specEncodingsDecode : Obligations.SpecEncodingsDecode :=
  ⟨rfl, rfl, rfl, rfl, rfl, rfl, rfl, rfl, rfl, rfl, rfl, rfl⟩

/-! ### The encoder writes the header back -/

section
variable {w : Word}

theorem payloadWords_of_not_update (hop : hdrOp w ≠ opUpdate) : payloadWords w = 0 := if_neg hop

theorem payloadWords_of_opUpdate (hop : hdrOp w = opUpdate) : payloadWords w = payloadLen (hdrOperand w) := if_pos hop

/-- R113: an INIT header is its ALG, BO, CTX and IMPL. -/
theorem encodeInit_fields (hop : hdrOp w = opInit) (hres : hdrReservedI w = 0#14) {alg bo : BitVec 1}
    (halg : hdrAlg w = alg) (hbo : hdrBo w = bo) : encodeInit alg bo (hdrCtx w) (.ofCode (hdrImpl w)) = w := by
  simp only [word_eq_iff_init, hdrReservedI_encodeInit, hdrImpl_encodeInit, code_ofCode, hdrBo_encodeInit,
    hdrAlg_encodeInit, hdrCtx_encodeInit, hdrOp_encodeInit]
  exact ⟨hres.symm, trivial, hbo.symm, halg.symm, trivial, hop.symm⟩

/-- The other formats, with OPERAND and OP known. -/
theorem encodePlain_of_fields {operand : BitVec 20} {op : Byte} (hop : hdrOp w = op)
    (hoperand : hdrOperand w = operand) : encodePlain operand (hdrCtx w) op = w := by
  rw [← hop, ← hoperand, encodePlain_fields]

/-- R118, R125: a header of a row is what the encoder writes for the row's command. -/
theorem encodeHeader_of_rowDecodes {p : List Word} {i : Instr} (h : RowDecodes w p i)
    (hlegal : ∀ op, i ≠ .illegal op) : encodeHeader i = w := by
  cases h with
  | initF4Le hop hres halg hbo => exact encodeInit_fields hop hres halg hbo
  | initF4Be hop hres halg hbo => exact encodeInit_fields hop hres halg hbo
  | initSha256 hop hres halg hbo => exact encodeInit_fields hop hres halg hbo
  | update hop => exact encodePlain_of_fields hop rfl
  | finalize hop hres => exact encodePlain_of_fields hop hres
  | status hop hres => exact encodePlain_of_fields hop hres
  | caps hop hres hctx =>
    have hplain := encodePlain_of_fields hop hres
    rwa [hctx] at hplain
  | illegal h => exact absurd rfl (hlegal _)

/-- R110, R114: with the payload its header announces, the command of a row is well formed and carries that payload. -/
theorem payload_of_rowDecodes {p : List Word} {i : Instr} (h : RowDecodes w p i) (hlegal : ∀ op, i ≠ .illegal op)
    (hp : p.length = payloadWords w) : i.wf = true ∧ i.payload = p := by
  have hnone {op : Byte} (hop : hdrOp w = op) (hne : op ≠ opUpdate) : [] = p :=
    (List.length_eq_zero_iff.1 (hp.trans (payloadWords_of_not_update (hop ▸ hne)))).symm
  cases h with
  | initF4Le hop => exact ⟨rfl, hnone hop (by decide)⟩
  | initF4Be hop => exact ⟨rfl, hnone hop (by decide)⟩
  | initSha256 hop => exact ⟨rfl, hnone hop (by decide)⟩
  | update hop => exact ⟨by simpa [Instr.wf, payloadWords_of_opUpdate hop] using hp, rfl⟩
  | finalize hop => exact ⟨rfl, hnone hop (by decide)⟩
  | status hop => exact ⟨rfl, hnone hop (by decide)⟩
  | caps hop => exact ⟨rfl, hnone hop (by decide)⟩
  | illegal h => exact absurd rfl (hlegal _)

end

/-- Settles O3: header and payload of a row's command are the encoder's. -/
theorem encodeInvertsDecode : Obligations.EncodeInvertsDecode := by
  intro hdr payload hlen hlegal
  have hrow := rowDecodes_command hdr payload
  obtain ⟨hwf, hpayload⟩ := payload_of_rowDecodes hrow hlegal hlen
  exact ⟨hwf, by rw [encode, encodeHeader_of_rowDecodes hrow hlegal, hpayload]⟩

/-! ### Illegal headers (R119) -/

section
variable {w : Word} {p : List Word} {op : Byte}

theorem command_illegal_iff : (∃ op, command w p = .illegal op) ↔ IllegalHeader w := by
  refine ⟨fun ⟨op, h⟩ => ?_, fun h => ⟨_, command_of_illegalHeader h⟩⟩
  cases rowDecodes_iff.2 h with
  | illegal hill => exact hill

theorem op_of_command_illegal (h : command w p = .illegal op) : op = hdrOp w := by
  cases rowDecodes_iff.2 h with
  | illegal => rfl

/-- R119: UPDATE has no illegal form. -/
theorem op_ne_update_of_illegal (h : IllegalHeader w) : hdrOp w ≠ opUpdate := by
  intro hop
  rcases h with hnone | ⟨hother, -⟩ | ⟨hother, -⟩ | ⟨hother | hother, -⟩ | ⟨hother, -⟩
  · exact hnone (by rw [hop]; decide)
  all_goals exact absurd (hop.symm.trans hother) (by decide)

/-- R119 (e), on the bits [31:8]. -/
theorem reservedC_ne_zero_iff : w.extractLsb' 8 24 ≠ 0#24 ↔ hdrOperand w ≠ 0#20 ∨ hdrCtx w ≠ 0#4 := by
  rw [Ne, reservedC_eq_zero_iff, Decidable.not_and_iff_or_not]

end

/-- R121: the status word of a response with no payload and no warning. -/
theorem rspWord_no_payload (code : Code) (op : Byte) :
    rspWord code false op 0 = (codeByte code).setWidth 32 ||| (op.setWidth 32 <<< 16) := by
  refine BitVec.eq_of_getLsbD_eq fun i hi => ?_
  simp only [rspWord, BitVec.getLsbD_append, BitVec.getLsbD_or, BitVec.getLsbD_shiftLeft, BitVec.getLsbD_setWidth,
    BitVec.getLsbD_zero, hi]
  grind

/-- Settles O4: the rows leave over exactly the illegal headers, which carry no payload and are answered with their
OP. -/
theorem illegalHeadersExactly : Obligations.IllegalHeadersExactly := by
  intro w p
  refine ⟨?_, fun op hop => ⟨op_of_command_illegal hop, ?_, fun s => ?_⟩⟩
  · rw [command_illegal_iff, reservedC_ne_zero_iff]
    rfl
  · exact payloadWords_of_not_update (op_ne_update_of_illegal (command_illegal_iff.1 ⟨op, hop⟩))
  · have hanswer : exec (.illegal op) s = .next (respond .illegalCommand false op [] s) := rfl
    rw [hanswer, respond, List.length_nil, rspWord_no_payload]
    rfl

/-! ### Masks (R118, R125) -/

section
variable {w : Word} {p : List Word}

/-- The mask of the INIT rows leaves all but IMPL and CTX. -/
theorem and_initMask_iff {v : Word} (himpl : hdrImpl v = 0#4) (hctx : hdrCtx v = 0#4) : w &&& 0xFFFC30FF#32 = v ↔
    hdrReservedI w = hdrReservedI v ∧ hdrBo w = hdrBo v ∧ hdrAlg w = hdrAlg v ∧ hdrOp w = hdrOp v := by
  have hmask : hdrReservedI 0xFFFC30FF#32 = BitVec.allOnes 14 ∧ hdrImpl 0xFFFC30FF#32 = 0#4
      ∧ hdrBo 0xFFFC30FF#32 = BitVec.allOnes 1 ∧ hdrAlg 0xFFFC30FF#32 = BitVec.allOnes 1
      ∧ hdrCtx 0xFFFC30FF#32 = 0#4 ∧ hdrOp 0xFFFC30FF#32 = BitVec.allOnes 8 := by decide
  obtain ⟨hres', himpl', hbo', halg', hctx', hop'⟩ := hmask
  rw [and_eq_iff_init, hres', himpl', hbo', halg', hctx', hop', himpl, hctx]
  simp only [BitVec.and_allOnes, BitVec.and_zero, true_and]

/-- The mask of FINALIZE and STATUS leaves all but CTX. -/
theorem and_plainMask_iff {v : Word} (hctx : hdrCtx v = 0#4) :
    w &&& 0xFFFFF0FF#32 = v ↔ hdrOperand w = hdrOperand v ∧ hdrOp w = hdrOp v := by
  have hmask : hdrOperand 0xFFFFF0FF#32 = BitVec.allOnes 20 ∧ hdrCtx 0xFFFFF0FF#32 = 0#4
      ∧ hdrOp 0xFFFFF0FF#32 = BitVec.allOnes 8 := by decide
  obtain ⟨hoperand', hctx', hop'⟩ := hmask
  rw [and_eq_iff_plain, hoperand', hctx', hop', hctx]
  simp only [BitVec.and_allOnes, BitVec.and_zero, true_and]

/-- The mask of UPDATE leaves OP. -/
theorem and_opMask_iff {v : Word} (hoperand : hdrOperand v = 0#20) (hctx : hdrCtx v = 0#4) :
    w &&& 0x000000FF#32 = v ↔ hdrOp w = hdrOp v := by
  have hmask : hdrOperand 0x000000FF#32 = 0#20 ∧ hdrCtx 0x000000FF#32 = 0#4
      ∧ hdrOp 0x000000FF#32 = BitVec.allOnes 8 := by decide
  obtain ⟨hoperand', hctx', hop'⟩ := hmask
  rw [and_eq_iff_plain, hoperand', hctx', hop', hoperand, hctx]
  simp only [BitVec.and_allOnes, BitVec.and_zero, true_and]

end

/-- Settles O5: a mask leaves the fields that fix its row, and the row takes the others as operands. -/
theorem rowsMatchUnderTheirMasks : Obligations.RowsMatchUnderTheirMasks := by
  intro w p
  refine ⟨?_, ?_, ?_, ?_, ?_, ?_, ?_, by decide⟩
  · rw [and_initMask_iff rfl rfl, ← rowDecodes_iff]
    exact ⟨fun ⟨hres, hbo, halg, hop⟩ => .initF4Le hop hres halg hbo, fun
      | .initF4Le hop hres halg hbo => ⟨hres, hbo, halg, hop⟩⟩
  · rw [and_initMask_iff rfl rfl, ← rowDecodes_iff]
    exact ⟨fun ⟨hres, hbo, halg, hop⟩ => .initF4Be hop hres halg hbo, fun
      | .initF4Be hop hres halg hbo => ⟨hres, hbo, halg, hop⟩⟩
  · rw [and_initMask_iff rfl rfl, ← rowDecodes_iff]
    exact ⟨fun ⟨hres, hbo, halg, hop⟩ => .initSha256 hop hres halg hbo, fun
      | .initSha256 hop hres halg hbo => ⟨hres, hbo, halg, hop⟩⟩
  · rw [and_opMask_iff rfl rfl, ← rowDecodes_iff]
    exact ⟨fun hop => .update hop, fun
      | .update hop => hop⟩
  · rw [and_plainMask_iff rfl, ← rowDecodes_iff]
    exact ⟨fun ⟨hres, hop⟩ => .finalize hop hres, fun
      | .finalize hop hres => ⟨hres, hop⟩⟩
  · rw [and_plainMask_iff rfl, ← rowDecodes_iff]
    exact ⟨fun ⟨hres, hop⟩ => .status hop hres, fun
      | .status hop hres => ⟨hres, hop⟩⟩
  · rw [word_eq_iff_plain, ← rowDecodes_iff]
    exact ⟨fun ⟨hres, hctx, hop⟩ => .caps hop hres hctx, fun
      | .caps hop hres hctx => ⟨hres, hctx, hop⟩⟩

end Sys2Proof.Machine
end

section
/-! The Fletcher4 engine on whole runs: the merge continues a run (R204), the lanes of every kernel reduce to the scalar
sums (R207 to R211), and the scalar run from zero computes the digest of R200. -/

namespace Sys2Proof.Machine

/-! ### The scalar run -/

@[simp] theorem f4Merge_zero (s : Quad) : f4Merge s Quad.zero 0 = s := by
  simp [f4Merge, Quad.zero]

/-- R204: continuing from `s` is merging the run's own sums into `s`. -/
theorem f4Merge_f4Scalar (s : Quad) (w : List Word) : f4Merge s (f4Scalar Quad.zero w) w.length = f4Scalar s w := by
  induction w using List.reverseRecOn with
  | nil => exact f4Merge_zero s
  | append_singleton w f ih =>
    rw [f4Scalar_append, f4Scalar_append, ← ih, List.length_append]
    exact (f4Step_merge s _ _ f).symm

/-- R200: the head of a list of words has the weight of the whole length. -/
@[simp] theorem weightedSum_cons (weight : Nat → Nat) (f : Word) (rest : List Word) : weightedSum weight (f :: rest)
    = BitVec.ofNat 64 (weight (rest.length + 1)) * f.setWidth 64 + weightedSum weight rest := rfl

/-- R200, R203: the run from zero is the digest. The first word, merged with the sums of the others, has the weights of
the whole length. -/
theorem f4Scalar_zero (f : List Word) : f4Scalar Quad.zero f = fletcherDigest f := by
  induction f with
  | nil => rfl
  | cons x f ih =>
    rw [f4Scalar_cons, ← f4Merge_f4Scalar, ih]
    simp only [fletcherDigest, weightedSum_cons, f4Merge, f4Step, Quad.zero, triangular_succ, tetrahedral_succ,
      ofNat_eq_cast, Nat.cast_add, Nat.cast_one, Quad.mk.injEq]
    refine ⟨by ring, by ring, by ring, by ring⟩

/-! ### The lanes -/

/-- A run of whole strides of `k` words is built stride by stride. -/
theorem strides_induction {k : Nat} {P : List Word → Prop} (nil : P [])
    (append : ∀ w xs, w.length % k = 0 → xs.length = k → P w → P (w ++ xs)) (w : List Word)
    (hw : w.length % k = 0) : P w := by
  obtain ⟨n, hn⟩ := Nat.dvd_of_mod_eq_zero hw
  induction n generalizing w with
  | zero => exact List.length_eq_zero_iff.1 hn ▸ nil
  | succ n ih =>
    have htake : (w.take (k * n)).length = k * n := List.length_take_of_le (hn ▸ Nat.mul_le_mul_left k n.le_succ)
    have hmod : (w.take (k * n)).length % k = 0 := by rw [htake, Nat.mul_mod_right]
    have hdrop : (w.drop (k * n)).length = k := by
      rw [List.length_drop, hn, Nat.mul_succ, Nat.add_sub_cancel_left]
    exact List.take_append_drop (k * n) w ▸ append _ _ hmod hdrop (ih _ hmod htake)

/-- R206: one stride more is one scalar step more in each lane. -/
theorem laneQuads_append {k : Nat} (hk : 0 < k) {w xs : List Word} (hw : w.length % k = 0) (hx : xs.length = k) :
    laneQuads k (w ++ xs)
      = (List.range k).map fun j => f4Step (f4Scalar Quad.zero (laneWords k j w)) (xs.getD j 0) := by
  simp only [laneQuads, laneWords_append hk hw hx, f4Scalar_append, f4Scalar_cons, f4Scalar_nil]

/-- A reduction that gives zero for empty lanes, and for one word more in each lane the scalar run over those words,
gives the scalar sums of every run of whole strides. -/
theorem reduce_laneQuads {k : Nat} (hk : 0 < k) {reduce : List Quad → Quad}
    (hzero : reduce ((List.range k).map fun _ => Quad.zero) = Quad.zero)
    (hstep : ∀ (l : Nat → Quad) (xs : List Word), xs.length = k →
      reduce ((List.range k).map fun j => f4Step (l j) (xs.getD j 0)) = f4Scalar (reduce ((List.range k).map l)) xs)
    (w : List Word) (hw : w.length % k = 0) : reduce (laneQuads k w) = f4Scalar Quad.zero w := by
  refine strides_induction (P := fun w => reduce (laneQuads k w) = f4Scalar Quad.zero w) ?_ ?_ w hw
  · simpa [laneQuads, laneWords, pieces] using hzero
  · intro w xs hw hx ih
    rw [laneQuads_append hk hw hx, hstep _ _ hx, f4Scalar_append, ← ih]
    rfl

theorem reduce2_laneQuads {w : List Word} (hw : w.length % 2 = 0) : reduce2 (laneQuads 2 w) = f4Scalar Quad.zero w :=
  reduce_laneQuads (by decide) (by decide) (fun l xs hx => by
    obtain ⟨x1, x2, rfl⟩ := List.length_eq_two.1 hx
    exact reduce2_step (l 0) (l 1) x1 x2) w hw

theorem reduce4_laneQuads {w : List Word} (hw : w.length % 4 = 0) : reduce4 (laneQuads 4 w) = f4Scalar Quad.zero w :=
  reduce_laneQuads (by decide) (by decide) (fun l xs hx => by
    match xs, hx with
    | [x1, x2, x3, x4], _ => exact reduce4_step (l 0) (l 1) (l 2) (l 3) x1 x2 x3 x4) w hw

theorem reduce8_laneQuads {w : List Word} (hw : w.length % 8 = 0) : reduce8 (laneQuads 8 w) = f4Scalar Quad.zero w :=
  reduce_laneQuads (by decide) (by decide) (fun l xs hx => by
    match xs, hx with
    | [x1, x2, x3, x4, x5, x6, x7, x8], _ =>
      exact reduce8_step (l 0) (l 1) (l 2) (l 3) (l 4) (l 5) (l 6) (l 7) x1 x2 x3 x4 x5 x6 x7 x8) w hw

/-- R211: every kernel leaves the sums that the scalar kernel leaves. -/
theorem f4AbsorbK_eq_f4Scalar {k : Lanes} {w : List Word} (hw : w.length % laneCount k = 0) (s : Quad) :
    f4AbsorbK k s w = f4Scalar s w := by
  cases k with
  | one => rfl
  | two => rw [f4AbsorbK, reduce2_laneQuads hw, f4Merge_f4Scalar]
  | four => rw [f4AbsorbK, reduce4_laneQuads hw, f4Merge_f4Scalar]
  | eight => rw [f4AbsorbK, reduce8_laneQuads hw, f4Merge_f4Scalar]

end Sys2Proof.Machine
end

section
/-! Whole blocks of SHA-256: a run of blocks in two parts, the padded message, and FINALIZE's last blocks (R260 to
R264). -/

namespace Sys2Proof.Machine

/-- R264: the compression, in order, of the whole blocks of `m`. -/
def compressBlocks (h : Octet) (m : List Byte) : Octet := (pieces 64 (m.length / 64) m).foldl shaCompress h

theorem shaDigest_eq (m : List Byte) : shaDigest m = compressBlocks initialHash (shaMessage m) := rfl

theorem compressBlocks_append {a : List Byte} (ha : a.length % 64 = 0) (h : Octet) (b : List Byte) :
    compressBlocks h (a ++ b) = compressBlocks (compressBlocks h a) b := by
  have hlen : a.length = 64 * (a.length / 64) := by omega
  have hblocks : (a ++ b).length / 64 = a.length / 64 + b.length / 64 := by
    rw [List.length_append]
    omega
  rw [compressBlocks, hblocks, pieces_append 64 _ b _ a hlen, List.foldl_append]
  rfl

theorem compressBlocks_one {p : List Byte} (hp : p.length = 64) (h : Octet) : compressBlocks h p = shaCompress h p := by
  rw [compressBlocks, hp]
  exact congrArg (shaCompress h) (List.take_of_length_le hp.le)

theorem compressBlocks_two {p : List Byte} (hp : p.length = 128) (h : Octet) :
    compressBlocks h p = shaCompress (shaCompress h (p.take 64)) (p.drop 64) := by
  have htake : (p.take 64).length = 64 := by rw [List.length_take, hp]; rfl
  have hdrop : (p.drop 64).length = 64 := by rw [List.length_drop, hp]
  conv_lhs => rw [← List.take_append_drop 64 p]
  rw [compressBlocks_append (by rw [htake]), compressBlocks_one htake, compressBlocks_one hdrop]

/-- R262: the padding looks at the length modulo the block only. -/
theorem padZeros_mod (r : Nat) : padZeros (r % 64) = padZeros r := by
  unfold padZeros
  omega

/-- R263: the padded bytes of a buffer are one block or two. -/
theorem shaPadded_length {buf : List Byte} (hbuf : buf.length < 64) (count : DWord) :
    (shaPadded buf count).length = 64 ∨ (shaPadded buf count).length = 128 := by
  have hlen : (shaPadded buf count).length = buf.length + (padZeros buf.length + 1) + 8 := by
    simp only [shaPadded, be64, List.length_append, List.length_cons, List.length_replicate, List.length_nil]
  have hzeros : padZeros buf.length < 64 ∧ (buf.length + 1 + padZeros buf.length + 8) % 64 = 0 := by
    unfold padZeros
    omega
  omega

/-- R263: FINALIZE compresses the padded bytes block by block. -/
theorem shaFinish_eq {buf : List Byte} (hbuf : buf.length < 64) (h : Octet) (count : DWord) :
    shaFinish h buf count = compressBlocks h (shaPadded buf count) := by
  rcases shaPadded_length hbuf count with hlen | hlen
  · have hone : ¬(shaPadded buf count).length = 128 := by omega
    exact (if_neg hone).trans <| by
      rw [List.take_of_length_le hlen.le, compressBlocks_one hlen]
  · exact (if_pos hlen).trans (compressBlocks_two hlen h).symm

/-- R262: whole blocks followed by a buffer are padded as the buffer is, with the bit length of all of them. -/
theorem shaMessage_append {a : List Byte} (ha : a.length % 64 = 0) (b : List Byte) :
    shaMessage (a ++ b) = a ++ shaPadded b (BitVec.ofNat 64 (8 * (a ++ b).length)) := by
  have hzeros : padZeros (a ++ b).length = padZeros b.length := by
    rw [← padZeros_mod, List.length_append, Nat.add_mod, ha, Nat.zero_add, Nat.mod_mod, padZeros_mod]
  simp only [shaMessage, shaPadded, hzeros, List.append_assoc]

/-- R264: the digest of whole blocks followed by a buffer. -/
theorem shaDigest_append {a b : List Byte} (ha : a.length % 64 = 0) (hb : b.length < 64) : shaDigest (a ++ b)
    = shaFinish (compressBlocks initialHash a) b (BitVec.ofNat 64 (8 * (a ++ b).length)) := by
  rw [shaDigest_eq, shaMessage_append ha, compressBlocks_append ha, shaFinish_eq hb]

end Sys2Proof.Machine
end

section
/-! What UPDATE makes of a context's running state (R332): the whole strides of the message so far, absorbed in one run.
So a context that INIT has bound is, after any UPDATEs, what their bytes together make of it (R333). -/

namespace Sys2Proof.Machine

/-! ### Whole strides and what is left -/

/-- The whole strides of a byte sequence. -/
def wholePart (S : Nat) (m : List Byte) : List Byte := m.take (m.length / S * S)

/-- The bytes after its whole strides. -/
def restPart (S : Nat) (m : List Byte) : List Byte := m.drop (m.length / S * S)

section
variable {S : Nat} (m : List Byte)

@[simp] theorem wholePart_append_restPart : wholePart S m ++ restPart S m = m := List.take_append_drop ..

@[simp] theorem wholePart_nil : wholePart S [] = [] := List.take_nil

@[simp] theorem restPart_nil : restPart S [] = [] := List.drop_nil

theorem wholePart_length : (wholePart S m).length = m.length / S * S :=
  List.length_take_of_le (Nat.div_mul_le_self ..)

theorem wholePart_length_mod : (wholePart S m).length % S = 0 := by rw [wholePart_length, Nat.mul_mod_left]

theorem restPart_length : (restPart S m).length = m.length % S := by
  rw [restPart, List.length_drop, ← Nat.mod_eq_sub_div_mul]

variable {m}

theorem wholePart_of_short (h : m.length < S) : wholePart S m = [] := by
  simp [wholePart, Nat.div_eq_of_lt h]

theorem restPart_of_short (h : m.length < S) : restPart S m = m := by
  simp [restPart, Nat.div_eq_of_lt h]

variable {a : List Byte} (hS : 0 < S) (ha : a.length % S = 0) (b : List Byte)
include hS ha

theorem strides_of_append : (a ++ b).length / S * S = a.length + b.length / S * S := by
  obtain ⟨q, hq⟩ := Nat.dvd_of_mod_eq_zero ha
  rw [List.length_append, hq, Nat.mul_add_div hS, Nat.add_mul, Nat.mul_comm q]

/-- Whole strides before a sequence are whole strides of both together. -/
theorem wholePart_append : wholePart S (a ++ b) = a ++ wholePart S b := by
  rw [wholePart, strides_of_append hS ha, List.take_length_add_append, wholePart]

theorem restPart_append : restPart S (a ++ b) = restPart S b := by
  rw [restPart, strides_of_append hS ha, List.drop_length_add_append, restPart]

end

/-! ### Absorbing -/

section
variable {cfg : Config} {x : Context} {r : List Byte}

/-- R309, R211: a run of whole strides advances the Fletcher4 sums as the scalar kernel would. -/
theorem absorb_fletcher (halg : x.alg = .fletcher4) (hr : r.length % stride cfg x = 0) :
    absorb cfg x r = { x with f4 := f4Scalar x.f4 (wordsOf x.bo r) } := by
  rw [stride_fletcher halg] at hr
  have hwords : (wordsOf x.bo r).length % laneCount (lanesOf cfg x) = 0 := by
    obtain ⟨q, hq⟩ := Nat.dvd_of_mod_eq_zero hr
    rw [wordsOf_length x.bo _ r rfl, hq, Nat.mul_assoc, Nat.mul_div_cancel_left _ (by decide), Nat.mul_mod_right]
  simp only [absorb, halg, f4AbsorbK_eq_f4Scalar hwords]

theorem absorb_sha (halg : x.alg = .sha256) : absorb cfg x r = { x with h := compressBlocks x.h r } := by
  simp only [absorb, halg, compressBlocks]

/-- A run of whole strides is a run of whole words, whatever the algorithm (R41). -/
theorem length_mod_four (hr : r.length % stride cfg x = 0) : r.length % 4 = 0 := by
  have hdvd : 4 ∣ stride cfg x := by
    cases halg : x.alg with
    | fletcher4 => exact ⟨_, stride_fletcher halg⟩
    | sha256 => exact stride_sha halg ▸ by decide
  exact Nat.mod_eq_zero_of_dvd (hdvd.trans (Nat.dvd_of_mod_eq_zero hr))

@[simp] theorem absorb_nil : absorb cfg x [] = x := by
  cases halg : x.alg with
  | fletcher4 => exact absorb_fletcher halg (Nat.zero_mod _)
  | sha256 => exact absorb_sha halg

@[simp] theorem absorb_alg : (absorb cfg x r).alg = x.alg := by
  obtain ⟨f4, h, heq⟩ := absorb_eq cfg x r
  rw [heq]

@[simp] theorem stride_absorb : stride cfg (absorb cfg x r) = stride cfg x := by
  obtain ⟨f4, h, heq⟩ := absorb_eq cfg x r
  rw [heq]
  rfl

/-- Absorbing neither reads nor writes lifecycle, buffer and count. -/
theorem absorb_update (life : Life) (buf : List Byte) (count : DWord) :
    absorb cfg { x with life := life, buf := buf, count := count } r
      = { absorb cfg x r with life := life, buf := buf, count := count } := by
  simp only [absorb]
  cases x.alg <;> rfl

/-- R332: absorbing a run in two parts of whole strides. -/
theorem absorb_append (hr : r.length % stride cfg x = 0) {r' : List Byte} (hr' : r'.length % stride cfg x = 0) :
    absorb cfg (absorb cfg x r) r' = absorb cfg x (r ++ r') := by
  have hboth : (r ++ r').length % stride cfg x = 0 := by
    rw [List.length_append, Nat.add_mod, hr, hr', Nat.zero_add, Nat.zero_mod]
  have hwords : r.length = 4 * (r.length / 4) := by
    have := length_mod_four hr
    omega
  cases halg : x.alg with
  | fletcher4 =>
    rw [absorb_fletcher halg hboth, wordsOf_append x.bo r' _ r hwords, f4Scalar_append,
      absorb_fletcher (absorb_alg.trans halg) (stride_absorb.symm ▸ hr'), absorb_fletcher halg hr]
  | sha256 =>
    rw [stride_sha halg] at hr
    rw [absorb_sha (absorb_alg.trans halg), absorb_sha halg, absorb_sha halg, compressBlocks_append hr]

/-! ### UPDATE -/

variable {m : List Byte}

/-- R332, step 2. -/
theorem absorbBulk_eq_parts :
    absorbBulk cfg x m = (absorb cfg x (wholePart (stride cfg x) m), restPart (stride cfg x) m) := by
  by_cases hq : 0 < m.length / stride cfg x
  · exact if_pos hq
  · simp [absorbBulk, Nat.eq_zero_of_not_pos hq, wholePart, restPart]

/-- R332, step 1, where the bytes fill the buffer. -/
theorem topUp_eq_of_full (hne : x.buf ≠ []) (hshort : x.buf.length < stride cfg x)
    (hfull : stride cfg x ≤ (x.buf ++ m).length) : topUp cfg x m
      = ({ absorb cfg x ((x.buf ++ m).take (stride cfg x)) with buf := [] }, (x.buf ++ m).drop (stride cfg x)) := by
  have htake : (x.buf ++ m).take (stride cfg x) = x.buf ++ m.take (stride cfg x - x.buf.length) := by
    rw [List.take_append, List.take_of_length_le hshort.le]
  have hdrop : (x.buf ++ m).drop (stride cfg x) = m.drop (stride cfg x - x.buf.length) := by
    rw [List.drop_append, List.drop_of_length_le hshort.le, List.nil_append]
  have hlen : ((x.buf ++ m).take (stride cfg x)).length = stride cfg x := List.length_take_of_le hfull
  rw [htake] at hlen
  have hmin : min (stride cfg x - x.buf.length) m.length = stride cfg x - x.buf.length := by
    rw [List.length_append] at hfull
    omega
  simp only [topUp, if_neg hne, hmin, if_pos hlen, htake, hdrop]

/-- R332, R42: UPDATE absorbs the whole strides of the buffered and the new bytes, and buffers what is left. -/
theorem updateContext_eq_absorb (hshort : x.buf.length < stride cfg x) : updateContext cfg x m
    = { absorb cfg x (wholePart (stride cfg x) (x.buf ++ m)) with
        life := .absorbing
        buf := restPart (stride cfg x) (x.buf ++ m)
        count := countUp x.alg x.count m.length } := by
  have hS := stride_pos cfg x
  by_cases hne : x.buf = []
  · obtain ⟨f4, h, heq⟩ := absorb_eq cfg x (wholePart (stride cfg x) m)
    simp only [updateContext, topUp_of_empty hne, absorbBulk_eq_parts, hne, List.nil_append, heq]
  by_cases hlt : (x.buf ++ m).length < stride cfg x
  · simp only [updateContext, topUp_of_short hne hlt, absorbBulk_eq_parts, wholePart_nil, restPart_nil, absorb_nil,
      wholePart_of_short hlt, restPart_of_short hlt, List.append_nil]
  · have hle := Nat.le_of_not_lt hlt
    have htake : ((x.buf ++ m).take (stride cfg x)).length % stride cfg x = 0 := by
      rw [List.length_take_of_le hle, Nat.mod_self]
    have hwhole := wholePart_append hS htake ((x.buf ++ m).drop (stride cfg x))
    have hrest := restPart_append hS htake ((x.buf ++ m).drop (stride cfg x))
    rw [List.take_append_drop] at hwhole hrest
    have hbulk : stride cfg { absorb cfg x ((x.buf ++ m).take (stride cfg x)) with buf := [] } = stride cfg x :=
      stride_absorb
    simp only [updateContext, topUp_eq_of_full hne hshort hle, absorbBulk_eq_parts, hbulk, hwhole, hrest]
    rw [absorb_update (x := absorb cfg x ((x.buf ++ m).take (stride cfg x))) _ [] _,
      absorb_append htake (wholePart_length_mod _), List.nil_append]

/-! ### The bytes since INIT -/

theorem countUp_countUp (alg : Alg) (count : DWord) (a b : Nat) :
    countUp alg (countUp alg count a) b = countUp alg count (a + b) := by
  cases alg <;> simp only [countUp, BitVec.ofNat_add, Nat.mul_add, BitVec.add_assoc]

/-- What a context `x` with an empty buffer has become after the bytes `m`, in lifecycle state `life`. -/
def Context.afterBytes (cfg : Config) (x : Context) (life : Life) (m : List Byte) : Context :=
  { absorb cfg x (wholePart (stride cfg x) m) with
    life := life
    buf := restPart (stride cfg x) m
    count := countUp x.alg x.count m.length }

theorem afterBytes_nil (hbuf : x.buf = []) : x.afterBytes cfg x.life [] = x := by
  have hcount : countUp x.alg x.count 0 = x.count := by cases x.alg <;> exact BitVec.add_zero _
  rw [Context.afterBytes, wholePart_nil, absorb_nil, restPart_nil, List.length_nil, hcount, ← hbuf]

@[simp] theorem afterBytes_alg (life : Life) : (x.afterBytes cfg life m).alg = x.alg := absorb_alg

@[simp] theorem stride_afterBytes (life : Life) : stride cfg (x.afterBytes cfg life m) = stride cfg x := stride_absorb

/-- R333: UPDATE after the bytes `m` leaves what those and its own bytes together leave. -/
theorem updateContext_afterBytes (life : Life) (m' : List Byte) :
    updateContext cfg (x.afterBytes cfg life m) m' = x.afterBytes cfg .absorbing (m ++ m') := by
  have hS := stride_pos cfg x
  have hwhole := wholePart_append hS (wholePart_length_mod m) (restPart (stride cfg x) m ++ m')
  have hrest := restPart_append hS (wholePart_length_mod m) (restPart (stride cfg x) m ++ m')
  rw [← List.append_assoc, wholePart_append_restPart] at hwhole hrest
  have hshort : (x.afterBytes cfg life m).buf.length < stride cfg (x.afterBytes cfg life m) := by
    rw [stride_afterBytes]
    exact (restPart_length m).trans_lt (Nat.mod_lt _ hS)
  have hbuf : (x.afterBytes cfg life m).buf = restPart (stride cfg x) m := rfl
  have hcount : (x.afterBytes cfg life m).count = countUp x.alg x.count m.length := rfl
  rw [updateContext_eq_absorb hshort, stride_afterBytes, afterBytes_alg, hbuf, hcount, countUp_countUp,
    Context.afterBytes, absorb_update, absorb_append (wholePart_length_mod m) (wholePart_length_mod _),
    Context.afterBytes, hwhole, hrest, List.length_append]

end

end Sys2Proof.Machine
end

section
/-! A whole message through INIT, UPDATEs and FINALIZE (R331 to R334): the UPDATEs answer a word each and gather the
bytes, and FINALIZE answers the digest of all of them. HASH (R127) is such a run, its UPDATEs cut at MAX_NBYTES. -/

namespace Sys2Proof.Machine

/-! ### FINALIZE after the bytes of a message -/

/-- R334, R403, R88, R89: the response to FINALIZE of the message `m`. -/
def digestResponse (bo : ByteOrder) (m : List Byte) : Alg → List Word
  | .fletcher4 =>
    if m.length % 4 = 0 then 0x00038000#32 :: (fletcherDigest (wordsOf bo m)).words else [0x00030001#32]
  | .sha256 => 0x00038000#32 :: (shaDigest m).words

/-- A context whose running state is as INIT leaves it (R331). -/
structure Starts (x : Context) : Prop where
  f4_zero : x.f4 = Quad.zero
  h_initial : x.h = initialHash
  buf_empty : x.buf = []
  count_zero : x.count = 0

theorem starts_initialContext (alg : Alg) (bo : ByteOrder) (k : KernelId) (warn : Bool) :
    Starts (initialContext alg bo k warn) := ⟨rfl, rfl, rfl, rfl⟩

section
variable {cfg : Config} {x : Context} {life : Life} {m : List Byte}

/-- R41, R215: the Fletcher4 buffer holds whole words exactly when the message does. -/
theorem afterBytes_buf_length_mod_four :
    (x.afterBytes cfg life m).buf.length % 4 = m.length % 4 := by
  have hlen : (wholePart (stride cfg x) m).length + (restPart (stride cfg x) m).length = m.length := by
    rw [← List.length_append, wholePart_append_restPart]
  have hfour := length_mod_four (wholePart_length_mod (S := stride cfg x) m)
  have hbuf : (x.afterBytes cfg life m).buf = restPart (stride cfg x) m := rfl
  rw [hbuf]
  omega

/-- R215, R200: the sums after the buffered words are those of the whole message. -/
theorem f4Finish_afterBytes (hx : Starts x) (halg : x.alg = .fletcher4) :
    f4Finish (x.afterBytes cfg life m).f4 (x.afterBytes cfg life m).bo (x.afterBytes cfg life m).buf
      = fletcherDigest (wordsOf x.bo m) := by
  have hfour := length_mod_four (wholePart_length_mod (S := stride cfg x) m)
  rw [Context.afterBytes, absorb_fletcher halg (wholePart_length_mod m), f4Finish, ← f4Scalar_append,
    ← wordsOf_append x.bo _ _ _ (Nat.mul_div_cancel' (Nat.dvd_of_mod_eq_zero hfour)).symm, wholePart_append_restPart,
    hx.f4_zero, f4Scalar_zero]

/-- R262 to R264: the words after the padded buffer are the digest of the whole message. -/
theorem shaFinish_afterBytes (hx : Starts x) (halg : x.alg = .sha256) :
    shaFinish (x.afterBytes cfg life m).h (x.afterBytes cfg life m).buf (x.afterBytes cfg life m).count
      = shaDigest m := by
  have hwhole := wholePart_length_mod (S := 64) m
  have hrest : (restPart 64 m).length < 64 := (restPart_length m).trans_lt (Nat.mod_lt _ (by decide))
  have hdigest := shaDigest_append hwhole hrest
  rw [wholePart_append_restPart] at hdigest
  rw [hdigest, Context.afterBytes, absorb_sha halg, stride_sha halg, hx.h_initial, halg, hx.count_zero, countUp]
  exact congrArg _ (BitVec.zero_add _)

/-- R121: the status word of a FINALIZE of a message that is not whole words. -/
theorem rspWord_invalidLength : rspWord .invalidLength false opFinalize 0 = 0x00030001#32 := by decide

/-- R334, R403: FINALIZE answers the digest of the bytes since INIT. -/
theorem exec_finalize_afterBytes {s : State} {c : BitVec 4} (hx : Starts x)
    (hctx : s.ctx? c = some (x.afterBytes s.cfg life m)) (hlive : life = .fresh ∨ life = .absorbing) :
    ∃ t, exec (.finalize c) s = .next t ∧ t.respPort = s.respPort ++ digestResponse x.bo m x.alg := by
  have hexec := execFinalize_live hctx hlive
  rw [afterBytes_alg] at hexec
  cases halg : x.alg with
  | fletcher4 =>
    simp only [halg, afterBytes_buf_length_mod_four, f4Finish_afterBytes hx halg] at hexec
    by_cases hwords : m.length % 4 = 0
    · refine ⟨_, hexec.trans (if_pos hwords), ?_⟩
      rw [digestResponse, if_pos hwords, ← rspWord_digest]
      rfl
    · refine ⟨_, hexec.trans (if_neg hwords), ?_⟩
      rw [digestResponse, if_neg hwords, ← rspWord_invalidLength]
      rfl
  | sha256 =>
    simp only [halg, shaFinish_afterBytes hx halg] at hexec
    refine ⟨_, hexec, ?_⟩
    rw [digestResponse, ← rspWord_digest]
    rfl

end

/-! ### Lists of commands -/

/-- R94: the commands of a list in two parts. -/
theorem execAll_append (is js : List Instr) (s : State) :
    execAll (is ++ js) s = (execAll is s).bind (execAll js) := by
  induction is generalizing s with
  | nil => rfl
  | cons i is ih =>
    obtain ⟨t, ht⟩ := exec_next i s
    simp only [List.cons_append, execAll, ht, ih]

theorem execAll_cons {i : Instr} {s t : State} (h : exec i s = .next t) (is : List Instr) :
    execAll (i :: is) s = execAll is t := by simp only [execAll, h]

/-- R331: INIT of a context in range writes the record of a context that starts, and answers two words. -/
theorem exec_init {i : Instr} {alg : Alg} {bo : ByteOrder} {c : BitVec 4} {req : ImplReq} {s : State}
    (hi : exec i s = execInit alg bo c req s) (hc : c.toNat < s.numContexts) :
    ∃ k warn, exec i s = .next (respond .ok warn opInit [ctxStat s.cfg (initialContext alg bo k warn)]
      ((sampleCaps s).setCtx c (initialContext alg bo k warn))) := by
  obtain ⟨x, hx⟩ := (ctx?_some_iff s c).2 hc
  have hbind : exec i s = .next (bind alg bo c req s) := hi.trans (onContext_some hx)
  rw [bind_eq] at hbind
  exact ⟨_, _, hbind⟩

/-! ### The bytes gathered by a run -/

/-- A run from `s` to `t` that has answered `n` words, and in which context `c`, begun as `x`, has taken the bytes
`m`. -/
structure Gathered (s : State) (c : BitVec 4) (x : Context) (m : List Byte) (n : Nat) (t : State) : Prop where
  cfg_eq : t.cfg = s.cfg
  held : ∃ life, (life = .fresh ∨ life = .absorbing) ∧ t.ctx? c = some (x.afterBytes s.cfg life m)
  answered : ∃ pre, pre.length = n ∧ t.respPort = s.respPort ++ pre

/-- R331: INIT gathers no byte. -/
theorem gathered_init {i : Instr} {alg : Alg} {bo : ByteOrder} {c : BitVec 4} {req : ImplReq} {s : State}
    (hi : exec i s = execInit alg bo c req s) (hc : c.toNat < s.numContexts) :
    ∃ k warn t, exec i s = .next t ∧ Gathered s c (initialContext alg bo k warn) [] 2 t := by
  obtain ⟨k, warn, hexec⟩ := exec_init hi hc
  obtain ⟨x, hx⟩ := (ctx?_some_iff s c).2 hc
  refine ⟨k, warn, _, hexec, sampleCaps_cfg s, ⟨.fresh, .inl rfl, ?_⟩,
    [rspWord .ok warn opInit 1, ctxStat s.cfg (initialContext alg bo k warn)], rfl, ?_⟩
  · have hnil : (initialContext alg bo k warn).afterBytes s.cfg .fresh [] = initialContext alg bo k warn :=
      afterBytes_nil rfl
    rw [hnil]
    exact setCtx_ctx?_same _ _ _ ((sampleCaps_ctx? s c).trans hx)
  · rw [respond_respPort, setCtx_respPort, sampleCaps_respPort]
    rfl

namespace Gathered
variable {s t : State} {c : BitVec 4} {x : Context} {m : List Byte} {n : Nat}

/-- R332: UPDATE gathers its bytes and answers one word. -/
theorem update (h : Gathered s c x m n t) (nbytes : BitVec 20) (p : List Word) :
    ∃ u, exec (.update c nbytes p) t = .next u ∧ Gathered s c x (m ++ payloadBytes nbytes.toNat p) (n + 1) u := by
  obtain ⟨hcfg, ⟨life, hlive, hctx⟩, pre, hlen, hport⟩ := h
  refine ⟨_, (onContext_some hctx).trans (onLive_live hlive), hcfg, ⟨.absorbing, .inr rfl, ?_⟩,
    pre ++ [rspWord .ok false opUpdate 0], by rw [List.length_append, hlen]; rfl, ?_⟩
  · rw [← updateContext_afterBytes life, ← hcfg]
    exact setCtx_ctx?_same _ _ _ hctx
  · rw [respond_respPort, setCtx_respPort, hport, List.append_assoc]
    rfl

/-- R333: UPDATEs gather their bytes together, and each answers one word. -/
theorem updates (h : Gathered s c x m n t) (us : List (BitVec 20 × List Word)) :
    ∃ u, execAll (updatesOf c us) t = some u ∧ Gathered s c x (m ++ bytesOf us) (n + us.length) u := by
  induction us generalizing t m n with
  | nil => exact ⟨t, rfl, (List.append_nil m).symm ▸ h⟩
  | cons u us ih =>
    obtain ⟨v, hexec, hv⟩ := h.update u.1 u.2
    obtain ⟨w, hall, hw⟩ := ih hv
    rw [List.append_assoc, Nat.add_right_comm] at hw
    exact ⟨w, (execAll_cons hexec _).trans hall, hw⟩

/-- R334: FINALIZE answers the digest of the bytes gathered. -/
theorem finalize (h : Gathered s c x m n t) (hx : Starts x) :
    ∃ u, exec (.finalize c) t = .next u ∧ u.respPort = t.respPort ++ digestResponse x.bo m x.alg := by
  obtain ⟨hcfg, ⟨life, hlive, hctx⟩, -⟩ := h
  exact exec_finalize_afterBytes hx (hcfg.symm ▸ hctx) hlive

end Gathered

/-- R331 to R334: a whole message, in whatever UPDATEs: INIT answers two words, each UPDATE one, and FINALIZE the digest
of the message. -/
theorem execAll_message {i : Instr} {alg : Alg} {bo : ByteOrder} {c : BitVec 4} {req : ImplReq} {s : State}
    (hi : exec i s = execInit alg bo c req s) (hc : c.toNat < s.numContexts) (us : List (BitVec 20 × List Word)) :
    ∃ t u pre, execAll (i :: updatesOf c us) s = some t ∧ exec (.finalize c) t = .next u
      ∧ pre.length = 2 + us.length ∧ t.respPort = s.respPort ++ pre
      ∧ u.respPort = t.respPort ++ digestResponse bo (bytesOf us) alg := by
  obtain ⟨k, warn, t, hexec, ht⟩ := gathered_init hi hc
  obtain ⟨u, hall, hu⟩ := ht.updates us
  obtain ⟨pre, hlen, hport⟩ := hu.answered
  obtain ⟨v, hfinal, hdigest⟩ := hu.finalize (starts_initialContext alg bo k warn)
  exact ⟨u, v, pre, (execAll_cons hexec _).trans hall, hfinal, hlen, hport, hdigest⟩

/-! ### HASH (R127) -/

/-- R83: the payload words of `n` bytes are ⌈n/4⌉. -/
theorem packBytes_length (m : List Byte) : (packBytes m).length = (m.length + 3) / 4 := by
  induction m using packBytes.induct with
  | case1 b0 b1 b2 b3 rest ih =>
    rw [packBytes, List.length_cons, ih]
    simp only [List.length_cons]
    omega
  | case2 => simp [packBytes]
  | case3 => simp [packBytes]
  | case4 => simp [packBytes]
  | case5 => rfl

/-- R83, R86: a packed word is its four bytes again. -/
theorem wordBytes_decodeLE (b0 b1 b2 b3 : Byte) : wordBytes (decodeLE b0 b1 b2 b3) = [b0, b1, b2, b3] := by
  have hhigh {n : Nat} (x : BitVec n) (b : Byte) (k : Nat) : (x ++ b).extractLsb' (8 + k) 8 = x.extractLsb' k 8 :=
    (BitVec.extractLsb'_append_eq_of_le (Nat.le_add_right 8 k)).trans (by rw [Nat.add_sub_cancel_left])
  have h0 : (decodeLE b0 b1 b2 b3).extractLsb' 0 8 = b0 := BitVec.extractLsb'_append_eq_right
  have h1 : (decodeLE b0 b1 b2 b3).extractLsb' 8 8 = b1 := (hhigh _ b0 0).trans BitVec.extractLsb'_append_eq_right
  have h2 : (decodeLE b0 b1 b2 b3).extractLsb' 16 8 = b2 :=
    ((hhigh _ b0 8).trans (hhigh _ b1 0)).trans BitVec.extractLsb'_append_eq_right
  have h3 : (decodeLE b0 b1 b2 b3).extractLsb' 24 8 = b3 :=
    ((hhigh _ b0 16).trans (hhigh _ b1 8)).trans BitVec.extractLsb'_append_eq_left
  rw [wordBytes, h0, h1, h2, h3]

/-- R83: packed bytes are read back. -/
theorem payloadBytes_packBytes (m : List Byte) : payloadBytes m.length (packBytes m) = m := by
  induction m using packBytes.induct with
  | case1 b0 b1 b2 b3 rest ih =>
    rw [payloadBytes] at ih ⊢
    rw [packBytes, List.flatMap_cons, wordBytes_decodeLE]
    simpa only [List.length_cons, List.cons_append, List.nil_append, List.take_succ_cons, List.cons.injEq, true_and]
      using ih
  | case2 => simp [packBytes, payloadBytes, wordBytes_decodeLE]
  | case3 => simp [packBytes, payloadBytes, wordBytes_decodeLE]
  | case4 => simp [packBytes, payloadBytes, wordBytes_decodeLE]
  | case5 => rfl

/-- The NBYTES and payload of an UPDATE of at most MAX_NBYTES bytes. -/
def updateOperands (m : List Byte) : BitVec 20 × List Word := (BitVec.ofNat 20 m.length, packBytes m)

/-- R6, R114: MAX_NBYTES is the greatest NBYTES. -/
theorem updateOperands_fst_toNat {m : List Byte} (hm : m.length ≤ maxNBytes) :
    (updateOperands m).1.toNat = m.length := by
  have hlt : m.length < 2 ^ 20 := Nat.lt_of_le_of_lt hm (by decide)
  exact Nat.mod_eq_of_lt hlt

theorem updateOperands_payload_length {m : List Byte} (hm : m.length ≤ maxNBytes) :
    (updateOperands m).2.length = payloadLen (updateOperands m).1 := by
  rw [payloadLen, updateOperands_fst_toNat hm]
  exact packBytes_length m

theorem bytesOf_updateOperands_cons {m : List Byte} (hm : m.length ≤ maxNBytes) (us : List (BitVec 20 × List Word)) :
    bytesOf (updateOperands m :: us) = m ++ bytesOf us := by
  have hbytes : payloadBytes (updateOperands m).1.toNat (updateOperands m).2 = m := by
    rw [updateOperands_fst_toNat hm]
    exact payloadBytes_packBytes m
  rw [bytesOf, List.flatMap_cons, hbytes]
  rfl

theorem updatesOf_updateOperands_cons (c : BitVec 4) (m : List Byte) (us : List (BitVec 20 × List Word)) :
    updatesOf c (updateOperands m :: us) = updateOne c m :: updatesOf c us := rfl

/-- R127: the UPDATEs of HASH are well formed and carry the message in order. -/
theorem updatePieces_eq_updatesOf (c : BitVec 4) {k : Nat} {m : List Byte} (hk : m.length ≤ (k + 1) * maxNBytes) :
    ∃ us, updatePieces c k m = updatesOf c us ∧ bytesOf us = m ∧ ∀ u ∈ us, u.2.length = payloadLen u.1 := by
  have hone {m : List Byte} (hm : m.length ≤ maxNBytes) : ∃ us, [updateOne c m] = updatesOf c us ∧ bytesOf us = m
      ∧ ∀ u ∈ us, u.2.length = payloadLen u.1 :=
    ⟨[updateOperands m], rfl, (bytesOf_updateOperands_cons hm []).trans (List.append_nil m),
      List.forall_mem_singleton.2 (updateOperands_payload_length hm)⟩
  induction k generalizing m with
  | zero => exact hone (by omega)
  | succ k ih =>
    rw [updatePieces]
    split
    next hm => exact hone hm
    next hm =>
      have htake : (m.take maxNBytes).length ≤ maxNBytes := List.length_take_le ..
      have hdrop : (m.drop maxNBytes).length ≤ (k + 1) * maxNBytes := by
        rw [Nat.succ_mul] at hk
        rw [List.length_drop]
        omega
      obtain ⟨us, hpieces, hbytes, hlens⟩ := ih hdrop
      refine ⟨updateOperands (m.take maxNBytes) :: us, ?_, ?_, ?_⟩
      · rw [updatesOf_updateOperands_cons, hpieces]
      · rw [bytesOf_updateOperands_cons htake, hbytes, List.take_append_drop]
      · exact List.forall_mem_cons.2 ⟨updateOperands_payload_length htake, hlens⟩

theorem updateAll_eq_updatesOf (c : BitVec 4) (m : List Byte) :
    ∃ us, updateAll c m = updatesOf c us ∧ bytesOf us = m ∧ ∀ u ∈ us, u.2.length = payloadLen u.1 := by
  refine updatePieces_eq_updatesOf c (Nat.le_of_lt ?_)
  rw [Nat.mul_comm]
  exact Nat.lt_mul_div_succ _ (by decide)

theorem updatesOf_wf (c : BitVec 4) {us : List (BitVec 20 × List Word)}
    (h : ∀ u ∈ us, u.2.length = payloadLen u.1) : ∀ j ∈ updatesOf c us, j.wf = true := by
  intro j hj
  obtain ⟨u, hu, rfl⟩ := List.mem_map.1 hj
  simpa [Instr.wf] using h u hu

/-- R127: HASH with an INIT of any algorithm and byte order. -/
theorem hashAll_runs {i : Instr} {alg : Alg} {bo : ByteOrder} {c : BitVec 4} {req : ImplReq} {s : State}
    (hi : exec i s = execInit alg bo c req s) (hwf : i.wf = true) (hc : c.toNat < s.numContexts) (m : List Byte) :
    (∀ j ∈ hashAll i c m, j.wf = true)
      ∧ ∃ t pre, execAll (hashAll i c m) s = some t ∧ pre.length = 2 + (updateAll c m).length
        ∧ t.respPort = s.respPort ++ pre ++ digestResponse bo m alg := by
  obtain ⟨us, hus, rfl, hlens⟩ := updateAll_eq_updatesOf c m
  rw [hashAll, hus]
  refine ⟨fun j hj => ?_, ?_⟩
  · rcases List.mem_cons.1 hj with rfl | hj
    · exact hwf
    rcases List.mem_append.1 hj with hj | hj
    · exact updatesOf_wf c hlens j hj
    · exact List.mem_singleton.1 hj ▸ rfl
  · obtain ⟨t, u, pre, hall, hfinal, hlen, hport, hdigest⟩ := execAll_message hi hc us
    refine ⟨u, pre, ?_, by rw [hlen, updatesOf, List.length_map], by rw [hdigest, hport]⟩
    rw [← List.cons_append, execAll_append, hall]
    exact execAll_cons hfinal []

/-- Settles O56: each INIT row begins a message of its algorithm and byte order, and FINALIZE answers its digest. -/
theorem hashOfAnyMessage : Obligations.HashOfAnyMessage := by
  rintro s c req m i digest hc (⟨rfl, rfl⟩ | ⟨hi, hwords, rfl⟩ | ⟨bo, hi, hwords, rfl⟩)
  · exact hashAll_runs (alg := .sha256) (bo := .little) rfl rfl hc m
  · have herror (bo : ByteOrder) : digestResponse bo m .fletcher4 = [0x00030001#32] := if_neg hwords
    rcases hi with rfl | rfl
    · rw [← herror .little]
      exact hashAll_runs rfl rfl hc m
    · rw [← herror .big]
      exact hashAll_runs rfl rfl hc m
  · have hdigest : digestResponse bo m .fletcher4 = 0x00038000#32 :: (fletcherDigest (wordsOf bo m)).words :=
      if_pos hwords
    rw [← hdigest]
    rcases hi with ⟨rfl, rfl⟩ | ⟨rfl, rfl⟩
    · exact hashAll_runs rfl rfl hc m
    · exact hashAll_runs rfl rfl hc m

end Sys2Proof.Machine
end

section
/-! The family of spec/40_fletcher4.md: the scalar run and its digest (R200 to R204), the kernels' lanes (R205 to R211),
the byte order of words (R218), and a whole Fletcher4 message. -/

namespace Sys2Proof.Machine

/-! ### The scalar run and the kernels -/

/-- Settles O45: the step and the run are as R202 and R203 define them, and the run from zero is the digest by
induction over the words (`f4Scalar_zero`). -/
theorem scalarComputesDigest : Obligations.ScalarComputesDigest :=
  ⟨fun _ _ _ _ _ => rfl, f4Scalar_nil, fun s w f => f4Scalar_append s w [f], f4Scalar_zero⟩

/-- Settles O48: each kernel's reduction gives the run's own sums, and merging those continues the run. -/
theorem laneKernelsMatchScalar : Obligations.LaneKernelsMatchScalar := fun _ s _ hw => f4AbsorbK_eq_f4Scalar hw s

/-- Settles O46: the run continues by induction over its words; the four sums are those of `f4Merge`. -/
theorem mergeContinuesRun : Obligations.MergeContinuesRun := by
  rintro s q w n n2 n3 rfl rfl rfl rfl
  exact ⟨(f4Merge_f4Scalar s w).symm, rfl⟩

/-! ### The general reduction (R210) -/

/-- Lanes that all have the coefficient 0 add nothing. -/
theorem dot_replicate_zero (n : Nat) (xs : List DWord) : dot (List.replicate n 0) xs = 0 := by
  induction n generalizing xs with
  | zero => rfl
  | succ n ih =>
    cases xs with
    | nil => rfl
    | cons x xs => simp [List.replicate_succ, dot, ih]

/-- R207: for two lanes the formulas of R210 evaluate to the coefficients of the table, and to zeros for the A sums in
C and in D, which the table leaves out. -/
theorem reduceAny_two (l : List Quad) : reduceAny 2 l = reduce2 l := by
  have hzeros : dot [0, 0] (l.map Quad.a) = 0 := dot_replicate_zero 2 _
  calc reduceAny 2 l
      = { a := (reduce2 l).a
          b := (reduce2 l).b
          c := (reduce2 l).c + dot [0, 0] (l.map Quad.a)
          d := (reduce2 l).d - dot [0, 0] (l.map Quad.a) } := rfl
    _ = reduce2 l := by rw [hzeros, add_zero, sub_zero]

/-- R208: for four lanes the formulas evaluate to the coefficients of the table. -/
theorem reduceAny_four (l : List Quad) : reduceAny 4 l = reduce4 l := rfl

/-- R209: for eight lanes they do too. -/
theorem reduceAny_eight (l : List Quad) : reduceAny 8 l = reduce8 l := rfl

/-- R210: a single lane is the run itself; every coefficient off its own sum is 0. -/
theorem reduceAny_one (q : Quad) : reduceAny 1 [q] = q := by
  simp [reduceAny, dot, List.range_one]

/-- Settles O47: one coefficient table for each number of lanes. -/
theorem generalReductionGivesTables : Obligations.GeneralReductionGivesTables := fun l =>
  ⟨fun _ => reduceAny_two l, fun _ => reduceAny_four l, fun _ => reduceAny_eight l, reduceAny_one⟩

/-! ### Byte order (R218) -/

/-- Settles O49: by induction over the words; each reads the same from both ends. -/
theorem palindromicWordsIgnoreByteOrder : Obligations.PalindromicWordsIgnoreByteOrder := by
  intro m hm
  induction m using wordsOf.induct with
  | case1 b0 b1 b2 b3 rest ih =>
    have hrest : wordsOf .little rest = wordsOf .big rest :=
      ih fun i hi => hm (i + 1) (by simp only [List.length_cons]; omega)
    have hword : some b0 = some b3 ∧ some b1 = some b2 := hm 0 (by simp only [List.length_cons]; omega)
    obtain ⟨rfl, rfl⟩ : b0 = b3 ∧ b1 = b2 := hword.imp Option.some.inj Option.some.inj
    exact congrArg (decodeLE b0 b1 b1 b0 :: ·) hrest
  | case2 m hshort =>
    rw [wordsOf.eq_2 _ _ hshort, wordsOf.eq_2 _ _ hshort]

/-! ### A whole message (R219) -/

/-- Settles O50: both INIT rows begin a Fletcher4 message, and FINALIZE answers the digest of all the bytes gathered. -/
theorem fletcherDigestOfMessage : Obligations.FletcherDigestOfMessage := by
  intro s c req i bo us hc hi _
  have hinit : exec i s = execInit .fletcher4 bo c req s := by
    rcases hi with ⟨rfl, rfl⟩ | ⟨rfl, rfl⟩ <;> rfl
  obtain ⟨t, u, _, hall, hfinal, -, -, hdigest⟩ := execAll_message hinit hc us
  exact ⟨t, u, hall, hfinal, hdigest⟩

end Sys2Proof.Machine
end

section
/-! The family of spec/41_sha256.md: the message schedule (R255, R256), the compression (R260), FINALIZE's padded blocks
(R262, R263), and a whole SHA-256 message (R264, R267, R268). -/

namespace Sys2Proof.Machine

/-! ### A whole message (R264, R267) -/

/-- Settles O55: INIT begins a SHA-256 message, the UPDATEs gather its bytes, and FINALIZE answers their digest. -/
theorem shaDigestOfMessage : Obligations.ShaDigestOfMessage := by
  intro s c req us hc _
  have hinit : exec (.initSha256 c req) s = execInit .sha256 .little c req s := rfl
  obtain ⟨t, u, _, hall, hfinal, -, -, hdigest⟩ := execAll_message hinit hc us
  exact ⟨t, u, hall, hfinal, hdigest⟩

/-- R268: the digest of the message of no bytes. -/
theorem shaDigest_nil : (shaDigest []).words
    = [0xe3b0c442#32, 0x98fc1c14#32, 0x9afbf4c8#32, 0x996fb924#32, 0x27ae41e4#32, 0x649b934c#32, 0xa495991b#32,
       0x7852b855#32] := by decide +kernel

/-- Settles O54: the message without any UPDATE is the one of no bytes. -/
theorem emptyShaDigest : Obligations.EmptyShaDigest := by
  intro s c req hc
  obtain ⟨t, hinit⟩ := exec_next (.initSha256 c req) s
  obtain ⟨t', u, hall, hfinal, hport⟩ := shaDigestOfMessage s c req [] hc (List.forall_mem_nil _)
  obtain rfl : t = t' := Option.some.inj ((execAll_cons hinit []).symm.trans hall)
  have hnil : bytesOf [] = [] := rfl
  rw [hnil, shaDigest_nil] at hport
  exact ⟨t, u, hinit, hfinal, hport⟩

/-! ### FINALIZE (R262, R263) -/

/-- R262: the zero bytes are the least number that fills the last block. -/
theorem padZeros_fills (r : Nat) : padZeros r < 64 ∧ (r + 1 + padZeros r + 8) % 64 = 0 := by
  unfold padZeros
  omega

/-- R262: buffer, 0x80, zero bytes and the eight bytes of the count. -/
theorem length_shaPadded (buf : List Byte) (count : DWord) :
    (shaPadded buf count).length = buf.length + 1 + padZeros buf.length + 8 := by
  simp only [shaPadded, be64, List.length_append, List.length_cons, List.length_replicate, List.length_nil]
  omega

/-- R262: the eight bytes of the count by number, the most significant first. -/
theorem be64_eq_map (x : DWord) : be64 x = (List.range 8).map fun k => x.extractLsb' (56 - 8 * k) 8 := rfl

/-- Settles O35: the padded buffer is one block up to 55 bytes and two from 56, and FINALIZE compresses its blocks. -/
theorem finalizeSha : Obligations.FinalizeSha := by
  intro s c x hx hlive halg hbuf
  obtain ⟨hlt, hfills⟩ := padZeros_fills x.buf.length
  have hlen := length_shaPadded x.buf x.count
  have hfinish := shaFinish_eq hbuf x.h x.count
  refine ⟨padZeros x.buf.length, shaPadded x.buf x.count, shaFinish x.h x.buf x.count, hlt, hfills, ?_, ?_, ?_, ?_⟩
  · rw [shaPadded, be64_eq_map, List.append_cons]
  · intro hshort
    have hone : (shaPadded x.buf x.count).length = 64 := by omega
    exact ⟨hone, hfinish.trans (compressBlocks_one hone x.h)⟩
  · intro hlong
    have htwo : (shaPadded x.buf x.count).length = 128 := by omega
    exact ⟨htwo, hfinish.trans (compressBlocks_two htwo x.h)⟩
  · have hexec := execFinalize_live hx hlive
    rw [halg] at hexec
    rw [← rspWord_digest]
    exact hexec

/-! ### The message schedule (R255, R256) -/

/-- R86, R201: word `t` of a message is made of its bytes 4t to 4t + 3. -/
theorem wordsOf_getElem?_eq_bytes (bo : ByteOrder) {m : List Byte} {t : Nat} (h : 4 * t + 3 < m.length) :
    (wordsOf bo m)[t]? = some
      (decodeWord bo (m.getD (4 * t) 0) (m.getD (4 * t + 1) 0) (m.getD (4 * t + 2) 0) (m.getD (4 * t + 3) 0)) := by
  induction m using wordsOf.induct generalizing t with
  | case1 b0 b1 b2 b3 rest ih =>
    cases t with
    | zero => rfl
    | succ t => exact ih (by simp only [List.length_cons] at h; omega)
  | case2 m hshort =>
    match m with
    | [] | [_] | [_, _] | [_, _, _] => simp at h
    | b0 :: b1 :: b2 :: b3 :: rest => exact absurd rfl (hshort b0 b1 b2 b3 rest)

/-- R256: the schedule begins with the words it extends. -/
theorem take_extendSchedule (n : Nat) (w : List Word) : (extendSchedule n w).take w.length = w := by
  induction n generalizing w with
  | zero => exact List.take_length
  | succ n ih =>
    have hone := congrArg (List.take w.length) (ih (w ++ [scheduleWord w]))
    rwa [List.take_take, List.length_append, Nat.min_eq_left (Nat.le_add_right ..), List.take_left] at hone

theorem extendSchedule_getElem?_of_lt {n t : Nat} {w : List Word} (h : t < w.length) :
    (extendSchedule n w)[t]? = w[t]? := by
  rw [← List.getElem?_take_of_lt h, take_extendSchedule]

@[simp] theorem length_extendSchedule (n : Nat) (w : List Word) : (extendSchedule n w).length = w.length + n := by
  induction n generalizing w with
  | zero => rfl
  | succ n ih =>
    rw [extendSchedule, ih, List.length_append, List.length_singleton]
    omega

/-- R256: every word that the recurrence adds follows from the words before it. -/
theorem extendSchedule_getElem? {n t : Nat} {w : List Word} (hw : w.length ≤ t) (ht : t < w.length + n) :
    (extendSchedule n w)[t]? = some (scheduleWord ((extendSchedule n w).take t)) := by
  induction n generalizing w with
  | zero => omega
  | succ n ih =>
    have hlen : (w ++ [scheduleWord w]).length = w.length + 1 := List.length_append
    rcases hw.eq_or_lt with rfl | hlt
    · rw [take_extendSchedule, extendSchedule, extendSchedule_getElem?_of_lt (by omega), List.getElem?_concat_length]
    · exact ih (w := w ++ [scheduleWord w]) (by omega) (by omega)

/-- R256: the recurrence written out for the words that stand before position `t`. -/
theorem scheduleWord_take {v : List Word} {t : Nat} (h16 : 16 ≤ t) (ht : t ≤ v.length) : scheduleWord (v.take t)
    = smallSigma1 (v.getD (t - 2) 0) + v.getD (t - 7) 0 + smallSigma0 (v.getD (t - 15) 0) + v.getD (t - 16) 0 := by
  have hlen : (v.take t).length = t := List.length_take_of_le ht
  have hback {k : Nat} (hk : 0 < k) : (v.take t).getD (t - k) 0 = v.getD (t - k) 0 := by
    rw [List.getD_eq_getElem?_getD, List.getElem?_take_of_lt (by omega), List.getD_eq_getElem?_getD]
  simp only [scheduleWord, hlen, hback (Nat.zero_lt_succ _)]

/-- Settles O52: the words of the block come first, and the recurrence adds the other 48. -/
theorem scheduleRecurrence : Obligations.ScheduleRecurrence := by
  intro b hb
  have hwords : (wordsOf .big b).length = 16 := wordsOf_length .big 16 b (by rw [hb])
  have hlen : (schedule b).length = 64 := by rw [schedule, length_extendSchedule, hwords]
  refine ⟨hlen, fun t ht => ?_, fun t h16 ht => ?_⟩
  · rw [schedule, extendSchedule_getElem?_of_lt (by omega)]
    exact wordsOf_getElem?_eq_bytes .big (by omega)
  · rw [← scheduleWord_take h16 (by omega)]
    exact extendSchedule_getElem? (by omega) (by omega)

/-! ### The compression (R260) -/

/-- Settles O53: both compressions evaluate to the spec's words. -/
theorem compressedBlockVectors : Obligations.CompressedBlockVectors := ⟨by decide +kernel, by decide +kernel⟩

end Sys2Proof.Machine
end

section
/-! The family of spec/42_dispatch.md: which kernels are available (R303 to R305), which one is selected (R306 to R308),
when the capabilities are sampled (R301), and that no digest depends on any of it (R311). -/

namespace Sys2Proof.Machine

/-! ### Digests (R311, R339) -/

/-- R331: each of the three INIT rows is the shared INIT with an algorithm and a byte order of its own. -/
theorem exec_of_mem_initRows {mk : BitVec 4 → ImplReq → Instr}
    (h : mk ∈ [Instr.initF4Le, Instr.initF4Be, Instr.initSha256]) :
    ∃ alg bo, ∀ c req s, exec (mk c req) s = execInit alg bo c req s := by
  simp only [List.mem_cons, List.not_mem_nil, or_false] at h
  rcases h with rfl | rfl | rfl
  · exact ⟨.fletcher4, .little, fun _ _ _ => rfl⟩
  · exact ⟨.fletcher4, .big, fun _ _ _ => rfl⟩
  · exact ⟨.sha256, .little, fun _ _ _ => rfl⟩

/-- Settles O57: on each machine FINALIZE answers the digest of the bytes gathered, in which neither the kernel nor the
splitting has a part. -/
theorem digestIndependentOfKernel : Obligations.DigestIndependentOfKernel := by
  intro mk s s' c c' req req' us us' hmk hc hc' _ hbytes
  obtain ⟨alg, bo, hinit⟩ := exec_of_mem_initRows hmk
  obtain ⟨t, u, _, hall, hfinal, -, -, hdigest⟩ := execAll_message (hinit c req s) hc us
  obtain ⟨t', u', _, hall', hfinal', -, -, hdigest'⟩ := execAll_message (hinit c' req' s') hc' us'
  rw [← hbytes] at hdigest'
  exact ⟨t, u, t', u', digestResponse bo (bytesOf us) alg, hall, hfinal, hall', hfinal', hdigest, hdigest'⟩

/-! ### Availability (R303 to R305) -/

section
variable {cfg : Config} {caps : BitVec 7} {alg : Alg} {k : KernelId}

/-- R304, R305: the kernels available are scalar and those that serve the algorithm, with their bit of VALIDATED_MASK 1
and the capability they require reported. -/
theorem avail_iff : avail cfg caps alg k = true ↔ k = .scalar
    ∨ (serves cfg.kernelTable alg k = true ∧ cfg.validatedMask.getLsbD (k.code.toNat - 1) = true
      ∧ capMet caps (kernelRow cfg.kernelTable k).requires = true) := by
  by_cases hk : k = .scalar
  · subst hk
    simp [avail, serves_scalar]
  · simp [avail, builtIn_eq, hk]

/-- R305: scalar is always available. -/
theorem avail_scalar : avail cfg caps alg .scalar = true := avail_iff.2 (.inl rfl)

end

/-- Settles O21: kernel by kernel, the row of the default table tells the algorithms served and the two bits. -/
theorem availabilityByTable : Obligations.AvailabilityByTable := by
  refine ⟨fun _ _ _ => avail_scalar, fun cfg caps htable => ⟨fun k => ?_, fun k => ?_⟩⟩
  all_goals
    rw [avail_iff, htable]
    cases k <;> simp [serves, kernelRow, defaultKernelTable, capMet, capBit, KernelId.code]

/-! ### Selection (R306 to R308) -/

/-- R306: where scalar stands in the order, the order splits at the kernel selected, the first one available. -/
theorem autoOrder_eq_append_selectAuto {cfg : Config} (caps : BitVec 7) {alg : Alg}
    (hscalar : .scalar ∈ autoOrder cfg.kernelTable alg) :
    ∃ pre post, autoOrder cfg.kernelTable alg = pre ++ selectAuto cfg caps alg :: post
      ∧ (∀ j ∈ pre, avail cfg caps alg j = false) ∧ avail cfg caps alg (selectAuto cfg caps alg) = true := by
  have hsome : ((autoOrder cfg.kernelTable alg).find? (avail cfg caps alg)).isSome :=
    List.find?_isSome.2 ⟨.scalar, hscalar, avail_scalar⟩
  obtain ⟨k, hfind⟩ := Option.isSome_iff_exists.1 hsome
  have hselect : selectAuto cfg caps alg = k := by rw [selectAuto, hfind, Option.getD_some]
  obtain ⟨havail, pre, post, horder, hpre⟩ := List.find?_eq_some_iff_append.1 hfind
  rw [hselect]
  exact ⟨pre, post, horder, fun j hj => Bool.not_eq_true' _ ▸ hpre j hj, havail⟩

/-- Settles O22: both orders of the default table hold scalar. -/
theorem autoSelectsFirstAvailable : Obligations.AutoSelectsFirstAvailable := by
  intro cfg caps alg htable
  have hscalar : .scalar ∈ autoOrder cfg.kernelTable alg := by
    rw [htable]
    cases alg <;> decide
  obtain ⟨pre, post, horder, hpre, havail⟩ := autoOrder_eq_append_selectAuto caps hscalar
  refine ⟨pre, selectAuto cfg caps alg, post, ?_, hpre, havail, rfl⟩
  rw [← horder, htable]
  cases alg <;> rfl

/-- Settles O23: the branches of the selection, and `serves_select`. -/
theorem requestGrantedOrDowngraded : Obligations.RequestGrantedOrDowngraded := by
  intro cfg caps alg
  refine ⟨fun k havail => ?_, fun k hunavail => ?_, fun _ => rfl, serves_select cfg caps alg⟩
  · exact if_pos havail
  · exact if_neg (Bool.eq_false_iff.1 hunavail)

/-! ### Sampling (R301, R409) -/

/-- R301: the commands that sample: CAPS, and INIT of a context in range. -/
def Samples (i : Instr) (s : State) : Prop :=
  i = .caps ∨ ∃ c req, c.toNat < s.numContexts ∧ (i = .initF4Le c req ∨ i = .initF4Be c req ∨ i = .initSha256 c req)

section
variable {i : Instr} {s t : State}

/-- R331: an INIT of a context in range leaves the cache as its sample does. -/
theorem exec_init_caps {alg : Alg} {bo : ByteOrder} {c : BitVec 4} {req : ImplReq}
    (hi : exec i s = execInit alg bo c req s) (hc : c.toNat < s.numContexts) (h : exec i s = .next t) :
    t.capsValid = (sampleCaps s).capsValid ∧ t.capsCache = (sampleCaps s).capsCache := by
  obtain ⟨k, warn, hexec⟩ := exec_init hi hc
  obtain rfl := Host.Outcome.next.inj (hexec.symm.trans h)
  exact ⟨rfl, rfl⟩

theorem exec_caps_of_samples (hi : Samples i s) (h : exec i s = .next t) :
    t.capsValid = (sampleCaps s).capsValid ∧ t.capsCache = (sampleCaps s).capsCache := by
  rcases hi with rfl | ⟨c, req, hc, rfl | rfl | rfl⟩
  · obtain rfl := Host.Outcome.next.inj h
    exact ⟨rfl, rfl⟩
  · exact exec_init_caps (alg := .fletcher4) (bo := .little) rfl hc h
  · exact exec_init_caps (alg := .fletcher4) (bo := .big) rfl hc h
  · exact exec_init_caps (alg := .sha256) (bo := .little) rfl hc h

/-- R301, R409: every other command leaves the cache alone. -/
theorem exec_caps_of_not_samples (hi : ¬ Samples i s) (h : exec i s = .next t) :
    t.capsValid = s.capsValid ∧ t.capsCache = s.capsCache := by
  rcases exec_cases i s with ⟨code, -, -, he⟩ | ⟨c, x, -, -, he⟩ | ⟨rfl, -⟩ | ⟨alg, bo, c, req, x, hrow, hx, -⟩
    | ⟨c, n, p, x, -, -, -, he⟩ | ⟨c, x, -, -, -, ⟨-, -, he⟩ | ⟨-, -, he⟩ | ⟨-, he⟩⟩
  case inr.inr.inl => exact absurd (.inl rfl) hi
  case inr.inr.inr.inl =>
    have hc : c.toNat < s.numContexts := (ctx?_some_iff s c).1 ⟨x, hx⟩
    exact absurd (.inr ⟨c, req, hc, hrow.imp And.left (Or.imp And.left And.left)⟩) hi
  all_goals
    obtain rfl := Host.Outcome.next.inj (he.symm.trans h)
    exact ⟨rfl, rfl⟩

end

/-- Settles O25: a sampling command fills an empty cache with `caps_in`; a filled cache stays whatever the command, and
any cache under a command that does not sample. -/
theorem onlyInitAndCapsSample : Obligations.OnlyInitAndCapsSample := by
  intro i s t h
  refine ⟨fun hempty hi => ?_, ?_⟩
  · obtain ⟨hvalid, hcache⟩ := exec_caps_of_samples hi h
    rw [sampleCaps_capsValid] at hvalid
    rw [sampleCaps_capsCache, hempty] at hcache
    exact ⟨hvalid, hcache⟩
  · rintro (hvalid | ⟨hcaps, hinit⟩)
    · obtain ⟨u, code, warn, op, p, heffect, rfl⟩ := exec_effect h
      rw [hvalid]
      exact heffect.capsCache_of_valid hvalid
    · refine exec_caps_of_not_samples ?_ h
      rintro (rfl | ⟨c, req, hc, hrow⟩)
      · exact hcaps rfl
      · obtain ⟨hle, hbe, hsha⟩ := hinit c req hc
        rcases hrow with hrow | hrow | hrow
        exacts [hle hrow, hbe hrow, hsha hrow]

end Sys2Proof.Machine
end

section
/-! The family of spec/43_commands.md, UPDATE: what it leaves (R332), and that splitting a message changes nothing
(R333). -/

namespace Sys2Proof.Machine

/-! ### One UPDATE after another (R333) -/

section
variable {cfg : Config} {x : Context} {m : List Byte}

@[simp] theorem updateContext_life : (updateContext cfg x m).life = .absorbing := rfl

theorem updateContext_buf_short (hshort : x.buf.length < stride cfg x) :
    (updateContext cfg x m).buf.length < stride cfg (updateContext cfg x m) := by
  rw [updateContext_buf_length hshort, updateContext_stride hshort]
  exact Nat.mod_lt _ (stride_pos cfg x)

/-- COUNT can be taken back: every value is some value counted up. -/
theorem exists_countUp_eq (alg : Alg) (count : DWord) (n : Nat) : ∃ before, countUp alg before n = count := by
  cases alg with
  | fletcher4 => exact ⟨count - BitVec.ofNat 64 n, BitVec.sub_add_cancel ..⟩
  | sha256 => exact ⟨count - BitVec.ofNat 64 (8 * n), BitVec.sub_add_cancel ..⟩

/-- A context with a buffer shorter than the stride is one with an empty buffer after the buffered bytes. -/
theorem exists_eq_afterBytes (hshort : x.buf.length < stride cfg x) :
    ∃ (x0 : Context) (life : Life) (b : List Byte), x = x0.afterBytes cfg life b := by
  obtain ⟨before, hbefore⟩ := exists_countUp_eq x.alg x.count x.buf.length
  have hstride : stride cfg { x with buf := [], count := before } = stride cfg x := rfl
  refine ⟨{ x with buf := [], count := before }, x.life, x.buf, ?_⟩
  rw [Context.afterBytes, hstride, wholePart_of_short hshort, restPart_of_short hshort, absorb_nil, hbefore]

/-- R333: two UPDATEs, one after the other, leave what one UPDATE of both their bytes leaves. -/
theorem updateContext_updateContext (hshort : x.buf.length < stride cfg x) (m' : List Byte) :
    updateContext cfg (updateContext cfg x m) m' = updateContext cfg x (m ++ m') := by
  obtain ⟨x0, life, b, rfl⟩ := exists_eq_afterBytes hshort
  rw [updateContext_afterBytes, updateContext_afterBytes, updateContext_afterBytes, List.append_assoc]

end

section
variable {s : State} {c : BitVec 4} {x : Context}

/-- R332: UPDATE of a live context writes it and answers OK. -/
theorem exec_update_live (hx : s.ctx? c = some x) (hlive : x.life = .fresh ∨ x.life = .absorbing) (n : BitVec 20)
    (p : List Word) : exec (.update c n p) s
      = .next (respond .ok false opUpdate [] (s.setCtx c (updateContext s.cfg x (payloadBytes n.toNat p)))) :=
  (onContext_some hx).trans (onLive_live hlive)

/-- R333: UPDATEs of a live context, at least one, write what one UPDATE of all their bytes writes, and no other
context. -/
theorem execAll_updatesOf (hx : s.ctx? c = some x) (hlive : x.life = .fresh ∨ x.life = .absorbing)
    (hshort : x.buf.length < stride s.cfg x) {us : List (BitVec 20 × List Word)} (hus : us ≠ []) :
    ∃ t, execAll (updatesOf c us) s = some t
      ∧ t.ctxs = s.ctxs.set c.toNat (updateContext s.cfg x (bytesOf us)) := by
  induction us generalizing s x with
  | nil => exact absurd rfl hus
  | cons u us ih =>
    have hfirst := execAll_cons (exec_update_live hx hlive u.1 u.2) (updatesOf c us)
    have hbytes : bytesOf (u :: us) = payloadBytes u.1.toNat u.2 ++ bytesOf us := List.flatMap_cons
    rcases eq_or_ne us [] with rfl | hne
    · refine ⟨_, hfirst, ?_⟩
      rw [hbytes]
      exact congrArg (fun m => s.ctxs.set c.toNat (updateContext s.cfg x m)) (List.append_nil _).symm
    · obtain ⟨t, hrest, hctxs⟩ := ih (s := respond .ok false opUpdate [] (s.setCtx c _))
        (setCtx_ctx?_same s c _ hx) (.inr updateContext_life) (updateContext_buf_short hshort) hne
      refine ⟨t, hfirst.trans hrest, ?_⟩
      rw [hctxs, hbytes, ← updateContext_updateContext hshort]
      exact List.set_set ..

end

/-- Settles O32: both ways write the same context, and FINALIZE looks at no other. -/
theorem updateSplitting : Obligations.UpdateSplitting := by
  intro s c x us n p hx hlive hshort hus _ _ hbytes
  obtain ⟨t, hall, hctxs⟩ := execAll_updatesOf hx hlive hshort hus
  have hone := exec_update_live hx hlive n p
  rw [hbytes] at hone
  have hu : (respond .ok false opUpdate [] (s.setCtx c (updateContext s.cfg x (bytesOf us)))).ctx? c
      = some (updateContext s.cfg x (bytesOf us)) := setCtx_ctx?_same s c _ hx
  have ht : t.ctx? c = some (updateContext s.cfg x (bytesOf us)) := by
    rw [State.ctx?, hctxs]
    exact hu
  obtain ⟨v, w, _, r, hv, hw, -, -, hvport, hwport⟩ := answerAlike_execFinalize ht hu
  exact ⟨t, _, hall, hone, hctxs, v, w, r, hv, hw, hvport, hwport⟩

/-! ### The whole strides and the rest (R332) -/

/-- R121: the status word of an UPDATE that answers OK. -/
theorem rspWord_update : rspWord .ok false opUpdate 0 = 0x00020000#32 := by decide

/-- R332: an UPDATE of a live context that leaves `y` there, with its answer written out. -/
theorem exec_update_answers {s : State} {c : BitVec 4} {x : Context} {n : BitVec 20} {p : List Word}
    (hx : s.ctx? c = some x) (hlive : x.life = .fresh ∨ x.life = .absorbing) {y : Context}
    (hy : updateContext s.cfg x (payloadBytes n.toNat p) = y) :
    exec (.update c n p) s = .next { s with
      ctxs := s.ctxs.set c.toNat y, respPort := s.respPort ++ [0x00020000#32] } := by
  rw [exec_update_live hx hlive, hy, ← rspWord_update]
  rfl

/-- R264: the blocks of the whole part are the whole blocks. -/
theorem compressBlocks_wholePart (h : Octet) (m : List Byte) :
    compressBlocks h (wholePart 64 m) = (pieces 64 (m.length / 64) m).foldl shaCompress h := by
  rw [compressBlocks, wholePart_length, Nat.mul_div_cancel _ (by decide), wholePart, Nat.mul_comm, pieces_take]

/-- R332 Absorb: the whole strides of `m` through the engine of the algorithm. -/
theorem absorb_wholePart (cfg : Config) (x : Context) (m : List Byte) : absorb cfg x (wholePart (stride cfg x) m)
    = { x with
        f4 := if x.alg = .fletcher4 then f4Scalar x.f4 (wordsOf x.bo (wholePart (stride cfg x) m)) else x.f4
        h := if x.alg = .sha256 then (pieces 64 (m.length / stride cfg x) m).foldl shaCompress x.h else x.h } := by
  cases halg : x.alg with
  | fletcher4 =>
    rw [absorb_fletcher halg (wholePart_length_mod m), if_pos rfl, if_neg (by decide), halg]
  | sha256 =>
    rw [absorb_sha halg, stride_sha halg, compressBlocks_wholePart, if_pos rfl, if_neg (by decide), halg]

/-- R40, R261: COUNT grows by bytes or by bits. -/
theorem countUp_eq (alg : Alg) (count : DWord) (n : Nat) :
    countUp alg count n = count + BitVec.ofNat 64 (if alg = .sha256 then 8 * n else n) := by cases alg <;> rfl

/-- Settles O30: `updateContext_eq_absorb`, with the run absorbed by the engine of the algorithm. -/
theorem updateAbsorbsWholeStrides : Obligations.UpdateAbsorbsWholeStrides := by
  intro s c n p x hx hlive hshort hp
  refine ⟨_, _, _, rfl, rfl, rfl, exec_update_answers hx hlive ?_⟩
  have hn : (payloadBytes n.toNat p).length = n.toNat := payloadBytes_length (by omega)
  rw [updateContext_eq_absorb hshort, absorb_wholePart, countUp_eq, hn]
  rfl

/-- Settles O31: no byte more in a short buffer is no whole stride. -/
theorem emptyUpdateOnlyAbsorbs : Obligations.EmptyUpdateOnlyAbsorbs := by
  intro s c x hx hlive hshort
  refine exec_update_answers hx hlive ?_
  have hcount : countUp x.alg x.count 0 = x.count := by cases x.alg <;> exact BitVec.add_zero _
  have hnone : payloadBytes (0#20).toNat [] = [] := rfl
  rw [hnone, updateContext_eq_absorb hshort, List.append_nil, wholePart_of_short hshort, restPart_of_short hshort,
    absorb_nil, List.length_nil, hcount]

end Sys2Proof.Machine
end

section
/-! The family of spec/43_commands.md, the other commands: INIT, STATUS, CAPS and illegal headers (R331, R335 to R337),
the lifecycle table (R338), and the step that runs a decoded command (R330). -/

namespace Sys2Proof.Machine

/-! ### INIT, STATUS, CAPS, illegal headers (R331, R335 to R337) -/

/-- R121: the status word of an INIT that answers OK. -/
theorem rspWord_init (warn : Bool) :
    rspWord .ok warn opInit 1 = if warn then 0x00011100#32 else 0x00011000#32 := by cases warn <;> decide

/-- Settles O27: the rows are one INIT, which answers in the sampled state with the new record written. -/
theorem initBindsContext : Obligations.InitBindsContext := by
  intro s c req hc i alg bo hi
  have hinit : exec i s = execInit alg bo c req s := by
    rcases hi with ⟨rfl, rfl, rfl⟩ | ⟨rfl, rfl, rfl⟩ | ⟨rfl, rfl, rfl⟩ <;> rfl
  obtain ⟨x, hx⟩ := (ctx?_some_iff s c).2 hc
  refine ⟨_, _, _, _, rfl, rfl, rfl, ?_⟩
  rw [hinit, execInit, onContext_some hx, bind_eq, sampleCaps_capsCache, sampleCaps_eq, ← rspWord_init]
  rfl

/-- Settles O36: STATUS goes no further than the context check and its answer. -/
theorem statusAnswers : Obligations.StatusAnswers := by
  have hok : rspWord .ok false opStatus 3 = 0x00043000#32 := by decide
  have hbad : rspWord .badContext false opStatus 0 = 0x00040011#32 := by decide
  refine fun s c => ⟨fun x hx => ?_, fun hc => ?_⟩
  · rw [← hok]
    exact onContext_some hx
  · rw [← hbad]
    exact onContext_none ((ctx?_none_iff s c).2 hc)

/-- Settles O37: CAPS answers in the state that its sample leaves. -/
theorem capsAnswers : Obligations.CapsAnswers := by
  have hok : rspWord .ok false opCaps 3 = 0x00053000#32 := by decide
  refine fun s => ⟨_, rfl, ?_⟩
  rw [← sampleCaps_eq, ← sampleCaps_respPort s, ← hok]
  rfl

/-- Settles O38: the answer to an illegal header is its status word. -/
theorem illegalAnswers : Obligations.IllegalAnswers := by
  intro op s
  have hanswer : exec (.illegal op) s
      = .next { s with respPort := s.respPort ++ [rspWord .illegalCommand false op 0] } := rfl
  rw [hanswer, rspWord_no_payload]
  rfl

/-! ### The lifecycle table (R338) -/

/-- R121, R401: the low byte of a status word is its CODE. -/
theorem rspWord_code (code : Code) (warn : Bool) (op : Byte) (nwords : Nat) :
    (rspWord code warn op nwords).extractLsb' 0 8 = codeByte code := BitVec.extractLsb'_append_eq_right

/-- A command's result: context `c` is there with the lifecycle state `life`, and the response, after the words of
`port`, has the CODE `code`. -/
def EndsWith (c : BitVec 4) (port : List Word) (life : Life) (code : Byte) (r : Result) : Prop :=
  ∃ t y rsp p, r = .next t ∧ t.ctx? c = some y ∧ y.life = life ∧ t.respPort = port ++ rsp :: p
    ∧ rsp.extractLsb' 0 8 = code

section
variable {s : State} {c : BitVec 4} {x : Context}

theorem endsWith_respond (code : Code) (warn : Bool) (op : Byte) (p : List Word) (hx : s.ctx? c = some x) {life : Life}
    (hlife : x.life = life) : EndsWith c s.respPort life (codeByte code) (.next (respond code warn op p s)) :=
  ⟨_, x, _, p, rfl, hx, hlife, rfl, rspWord_code code warn op p.length⟩

/-- The answer after the context is written. -/
theorem endsWith_write (y : Context) (code : Code) (warn : Bool) (op : Byte) (p : List Word) (hx : s.ctx? c = some x) :
    EndsWith c s.respPort y.life (codeByte code) (.next (respond code warn op p (s.setCtx c y))) :=
  endsWith_respond code warn op p (setCtx_ctx?_same s c y hx) rfl

theorem endsWith_execInit (alg : Alg) (bo : ByteOrder) (req : ImplReq) (hx : s.ctx? c = some x) :
    EndsWith c s.respPort .fresh 0x00#8 (execInit alg bo c req s) := by
  rw [execInit, onContext_some hx, bind_eq, ← sampleCaps_respPort s]
  exact endsWith_write _ .ok _ _ _ ((sampleCaps_ctx? s c).trans hx)

/-- R402, R407: the lifecycle checks of UPDATE and FINALIZE leave an Unbound or Finalised context as it is. -/
theorem endsWith_onLive {op : Byte} {body : Result} {life : Life} {code : Byte} (hx : s.ctx? c = some x)
    (hbody : EndsWith c s.respPort life code body) :
    EndsWith c s.respPort
      (if x.life = .unbound then .unbound else if x.life = .finalised then .finalised else life)
      (if x.life = .unbound then 0x12#8 else if x.life = .finalised then 0x02#8 else code) (onLive op x s body) := by
  unfold onLive
  cases hlife : x.life with
  | unbound => exact endsWith_respond .notInitialised _ _ _ hx hlife
  | finalised => exact endsWith_respond .alreadyFinalised _ _ _ hx hlife
  | fresh => exact hbody
  | absorbing => exact hbody

/-- R338, the row UPDATE. -/
theorem endsWith_execUpdate (n : BitVec 20) (p : List Word) (hx : s.ctx? c = some x) :
    EndsWith c s.respPort (nextLife (.update c n p) x.life) (firstCode (.update c n p) s) (execUpdate c n p s) := by
  have hnext : nextLife (.update c n p) x.life
      = if x.life = .unbound then .unbound else if x.life = .finalised then .finalised else .absorbing := by
    cases x.life <;> rfl
  rw [execUpdate, onContext_some hx, hnext, firstCode, hx]
  exact endsWith_onLive hx (endsWith_write _ .ok _ _ _ hx)

/-- R338, the row FINALIZE; a Fletcher4 buffer with a part of a word is INVALID_LENGTH (R409). -/
theorem endsWith_execFinalize (hx : s.ctx? c = some x) :
    EndsWith c s.respPort (nextLife (.finalize c) x.life) (firstCode (.finalize c) s) (execFinalize c s) := by
  have hnext : nextLife (.finalize c) x.life
      = if x.life = .unbound then .unbound else if x.life = .finalised then .finalised else .finalised := by
    cases x.life <;> rfl
  rw [execFinalize, onContext_some hx, hnext, firstCode, hx]
  refine endsWith_onLive hx ?_
  cases x.alg with
  | fletcher4 =>
    by_cases hwhole : x.buf.length % 4 = 0
    · rw [if_pos hwhole, if_neg fun h => h.2 hwhole]
      exact endsWith_write _ .ok _ _ _ hx
    · rw [if_neg hwhole, if_pos (And.intro rfl hwhole)]
      exact endsWith_write _ .invalidLength _ _ _ hx
  | sha256 => exact endsWith_write _ .ok _ _ _ hx

/-- R338: every command that names a context in range. -/
theorem endsWith_exec {i : Instr} (hnamed : commandCtx i = some c) (hx : s.ctx? c = some x) :
    EndsWith c s.respPort (nextLife i x.life) (firstCode i s) (exec i s) := by
  have hinRange {code other : Byte} : (if c.toNat < s.numContexts then code else other) = code :=
    if_pos ((ctx?_some_iff s c).1 ⟨x, hx⟩)
  cases i with
  | initF4Le d req => cases hnamed; rw [firstCode, hinRange]; exact endsWith_execInit _ _ req hx
  | initF4Be d req => cases hnamed; rw [firstCode, hinRange]; exact endsWith_execInit _ _ req hx
  | initSha256 d req => cases hnamed; rw [firstCode, hinRange]; exact endsWith_execInit _ _ req hx
  | update d n p => cases hnamed; exact endsWith_execUpdate n p hx
  | finalize d => cases hnamed; exact endsWith_execFinalize hx
  | status d =>
    cases hnamed
    rw [firstCode, hinRange, exec, execStatus, onContext_some hx]
    exact endsWith_respond .ok _ _ _ hx rfl
  | caps => cases hnamed
  | illegal op => cases hnamed

end

/-- Settles O41: the rows of the table, and for a command that names no context the two effects left. -/
theorem lifecycleTable : Obligations.LifecycleTable := by
  refine fun i s t h => ⟨fun c x hnamed hx => ?_, fun hnone => ?_⟩
  · obtain ⟨t', y, rsp, p, ht', hy, hlife, hport, hcode⟩ := endsWith_exec hnamed hx
    obtain rfl := Host.Outcome.next.inj (h.symm.trans ht')
    exact ⟨y, rsp, p, hy, hlife, hport, hcode⟩
  · obtain ⟨u, code, warn, op, p, heffect, rfl⟩ := exec_effect h
    cases heffect with
    | nothing => rfl
    | sampled => exact sampleCaps_ctxs s
    | bound hnamed => rw [hnone] at hnamed; cases hnamed
    | written hnamed => rw [hnone] at hnamed; cases hnamed

/-! ### A step that completes a command (R330, R468) -/

/-- R110: the words that decode to one command and no more are its header and the payload words it announces. -/
theorem decode_whole {hdr : Word} {p : List Word} {i : Instr} (h : decode (hdr :: p) = .ok (i, [])) :
    p.length = payloadWords hdr ∧ command hdr p = i := by
  rw [decode] at h
  split at h
  next => cases h
  next henough =>
    obtain ⟨hi, hdrop⟩ := Prod.mk.inj (Except.ok.inj h)
    have hlen : p.length ≤ payloadWords hdr := List.drop_eq_nil_iff.1 hdrop
    rw [List.take_of_length_le hlen] at hi
    exact ⟨by omega, hi⟩

/-- R468: there is room for a command's response where its next state's port holds no more than RESP_DEPTH words. -/
theorem hasRoom_some_iff {i : Instr} {s t : State} (h : exec i s = .next t) :
    hasRoom (some i) s = true ↔ t.respPort.length ≤ s.cfg.respDepth := by
  obtain ⟨t', r, h', hport, hlen, -, -⟩ := exec_respPort i s
  obtain rfl := Host.Outcome.next.inj (h.symm.trans h')
  simp [hasRoom, hport, hlen]

/-- The room needed does not depend on framing and command port. -/
@[simp] theorem hasRoom_reframe (done : Option Instr) (f : Framing) (ws : List Word) (s : State) :
    hasRoom done (s.reframe f ws) = hasRoom done s := by
  cases done <;> simp [hasRoom]

/-- R81, R468: a word that completes a command is taken where the command's response fits, and waits where it does
not. -/
theorem takeWord_completes {s t : State} {w : Word} {rest : List Word} {f : Framing} {i : Instr}
    (hport : s.cmdPort = w :: rest) (hframe : frameWord s.framing w = (f, some i))
    (h : exec i (s.reframe f rest) = .next t) :
    takeWord s = if t.respPort.length ≤ s.cfg.respDepth then (s.reframe f rest, some i) else (s, none) := by
  have hroom := hasRoom_some_iff h
  rw [hasRoom_reframe, reframe_cfg] at hroom
  simp only [takeWord, hport, hframe, hroom]
  rfl

/-- The CORE's move with a word that completes a command runs the command where its response fits. -/
theorem step_core_completes {s t : State} {ts : List Turn} {w : Word} {rest : List Word} {f : Framing} {i : Instr}
    (hturns : (s.turns = [] ∧ ts = []) ∨ s.turns = .core :: ts) (hport : s.cmdPort = w :: rest)
    (hframe : frameWord s.framing w = (f, some i))
    (h : exec i { s with turns := ts, cmdPort := rest, framing := f } = .next t) :
    step s = .next (if t.respPort.length ≤ s.cfg.respDepth then t else { s with turns := ts }) := by
  have hnext := nextCommand_core hturns
  rw [takeWord_completes (s := { s with turns := ts }) hport hframe h] at hnext
  split at hnext
  next hfits => rw [if_pos hfits, step_of_nextCommand_some hnext]; exact h
  next hfits => rw [if_neg hfits, step_of_nextCommand_none hnext]

/-- Settles O8: both ways a command completes leave an Idle framing, and the decoder reads the command the framing
hands on. -/
theorem stepRunsDecodedCommand : Obligations.StepRunsDecodedCommand := by
  intro s ts w rest i hturns hport hdecodes
  have hframe : frameWord s.framing w = (.idle, some i) := by
    rcases hdecodes with ⟨hframing, hdecode⟩ | ⟨hdr, taken, hframing, hdecode⟩
    · obtain ⟨hlen, rfl⟩ := decode_whole hdecode
      rw [hframing, frameWord_idle_completes hlen.symm]
    · obtain ⟨-, rfl⟩ := decode_whole hdecode
      rw [hframing, frameWord_payload_completes]
  obtain ⟨t, h⟩ := exec_next i { s with turns := ts, cmdPort := rest, framing := .idle }
  exact ⟨t, h, step_core_completes hturns hport hframe h⟩

end Sys2Proof.Machine
end

section
/-! The family of spec/60_exceptions.md: the code a command answers (R405) and what an error leaves of the state (R409).
The ways a command can end are those of `exec_cases`; what is said here is the status word each of them answers. -/

namespace Sys2Proof.Machine

/-! ### The status word (R121) -/

/-- R401: CODE is not 0 on an error alone. -/
theorem codeByte_ne_zero_iff {code : Code} : codeByte code ≠ 0x00#8 ↔ code ≠ .ok := by cases code <;> decide

theorem codeByte_invalidLength_iff {code : Code} : codeByte code = 0x01#8 ↔ code = .invalidLength := by
  cases code <;> decide

/-- The fields of R121 above CODE, lowest first, read from the word that is made of them. -/
theorem rspWord_fields (code : Code) (warn : Bool) (op : Byte) (nwords : Nat) :
    (rspWord code warn op nwords).extractLsb' 8 1 = BitVec.ofBool warn
    ∧ (rspWord code warn op nwords).extractLsb' 9 3 = 0#3
    ∧ (rspWord code warn op nwords).extractLsb' 12 4 = BitVec.ofNat 4 nwords
    ∧ (rspWord code warn op nwords).extractLsb' 16 8 = op
    ∧ (rspWord code warn op nwords).extractLsb' 24 8 = 0#8 := by
  unfold rspWord
  refine ⟨?warn, ?reserved, ?nwords, ?opc, ?top⟩
    <;> repeat rw [BitVec.extractLsb'_append_eq_of_le (by decide)]
  case top => exact BitVec.extractLsb'_eq_self
  all_goals exact (BitVec.extractLsb'_append_eq_of_add_le (by decide)).trans BitVec.extractLsb'_eq_self

/-! ### The first error in the order of R405 -/

section
variable {i : Instr} {s t : State} {c : BitVec 4}

/-- R406: whatever the command, a context number out of range ends it. -/
theorem exec_out_of_range (hnamed : commandCtx i = some c) (hc : s.numContexts ≤ c.toNat) :
    exec i s = raise .badContext i.op s := by
  have hx := (ctx?_none_iff s c).2 hc
  cases i with
  | caps | illegal op => cases hnamed
  | _ => cases hnamed; exact onContext_none hx

theorem firstCode_out_of_range (hnamed : commandCtx i = some c) (hc : s.numContexts ≤ c.toNat) :
    firstCode i s = 0x11#8 := by
  have hx := (ctx?_none_iff s c).2 hc
  cases i with
  | caps | illegal op => cases hnamed
  | update d n p | finalize d => cases hnamed; rw [firstCode, hx]
  | _ => cases hnamed; exact if_neg (Nat.not_lt.2 hc)

/-- Every command answers the code of R405: BAD_CONTEXT out of range, and in range what the lifecycle table says. -/
theorem exec_answers_firstCode (i : Instr) (s : State) :
    ∃ t rsp p, exec i s = .next t ∧ t.respPort = s.respPort ++ rsp :: p ∧ rsp.extractLsb' 0 8 = firstCode i s := by
  cases hnamed : commandCtx i with
  | none =>
    cases i with
    | caps => exact ⟨_, _, _, rfl, congrArg (· ++ _) (sampleCaps_respPort s), rspWord_code ..⟩
    | illegal op => exact ⟨_, _, _, rfl, rfl, rspWord_code ..⟩
    | _ => cases hnamed
  | some c =>
    rcases Nat.lt_or_ge c.toNat s.numContexts with hc | hc
    · obtain ⟨x, hx⟩ := (ctx?_some_iff s c).2 hc
      obtain ⟨t, y, rsp, p, h, -, -, hport, hcode⟩ := endsWith_exec hnamed hx
      exact ⟨t, rsp, p, h, hport, hcode⟩
    · rw [firstCode_out_of_range hnamed hc]
      exact ⟨_, _, _, exec_out_of_range hnamed hc, rfl, rspWord_code ..⟩

/-- A known end of a command tells its first error. -/
theorem codeByte_eq_firstCode {u : State} {code : Code} {warn : Bool} {op : Byte} {p : List Word}
    (h : exec i s = .next (respond code warn op p u)) (hport : u.respPort = s.respPort) :
    codeByte code = firstCode i s := by
  obtain ⟨t, rsp, q, ht, hq, hcode⟩ := exec_answers_firstCode i s
  obtain rfl := Host.Outcome.next.inj (h.symm.trans ht)
  rw [respond_respPort, hport] at hq
  obtain ⟨rfl, -⟩ := List.cons.inj (List.append_cancel_left hq)
  rw [← hcode, rspWord_code]

end

/-! ### One response (R82, R122) -/

/-- R122: the number of payload words of a response that is OK. -/
def okPayloadLength : Instr → Nat
  | .initF4Le _ _ => 1
  | .initF4Be _ _ => 1
  | .initSha256 _ _ => 1
  | .update _ _ _ => 0
  | .finalize _ => 8
  | .status _ => 3
  | .caps => 3
  | .illegal _ => 0

theorem okPayloadLength_le (i : Instr) : okPayloadLength i ≤ 8 := by
  cases i <;> simp [okPayloadLength]

/-- A command answers once, with its own OP, WARN on an OK of INIT alone (R404), and the payload of R122. -/
theorem exec_eq_respond (i : Instr) (s : State) :
    ∃ code warn p u, exec i s = .next (respond code warn i.op p u) ∧ u.respPort = s.respPort
      ∧ (warn = true → i.op = opInit ∧ code = .ok)
      ∧ p.length = if code ≠ .ok then 0 else okPayloadLength i := by
  have hquiet {code : Code} : false = true → i.op = opInit ∧ code = .ok := fun h => by cases h
  rcases exec_cases i s with ⟨code, hcode, -, h⟩ | ⟨c, x, rfl, -, h⟩ | ⟨rfl, h⟩ | ⟨alg, bo, c, req, x, hrow, -, h⟩
    | ⟨c, n, p, x, rfl, -, -, h⟩ | ⟨c, x, rfl, -, -, ⟨-, -, h⟩ | ⟨-, -, h⟩ | ⟨-, h⟩⟩
  case inr.inr.inr.inl =>
    obtain ⟨hop, hlen⟩ : i.op = opInit ∧ okPayloadLength i = 1 := by
      rcases hrow with ⟨rfl, -⟩ | ⟨rfl, -⟩ | ⟨rfl, -⟩ <;> exact ⟨rfl, rfl⟩
    rw [bind_eq, ← hop] at h
    exact ⟨.ok, _, _, _, h, sampleCaps_respPort s, fun _ => ⟨hop, rfl⟩, hlen.symm⟩
  case inr.inr.inl => exact ⟨.ok, false, _, _, h, sampleCaps_respPort s, hquiet, rfl⟩
  case inl => exact ⟨code, false, _, _, h, rfl, hquiet, (if_pos hcode).symm⟩
  all_goals exact ⟨_, false, _, _, h, rfl, hquiet, rfl⟩

/-- Settles O14: the one answer of a command, field by field, with the code of R405. -/
theorem oneResponsePerCommand : Obligations.OneResponsePerCommand := by
  intro i s
  obtain ⟨code, warn, p, u, h, hport, hwarn, hlen⟩ := exec_eq_respond i s
  have hcode := codeByte_eq_firstCode h hport
  have hshort : p.length ≤ 8 := by
    rw [hlen]
    split
    next => exact Nat.zero_le 8
    next => exact okPayloadLength_le i
  obtain ⟨hw, hreserved, hnwords, hopc, htop⟩ := rspWord_fields code warn i.op p.length
  refine ⟨_, _, p, h, by rw [respond_respPort, hport], (rspWord_code ..).trans hcode, fun hbit => ?_, hreserved, hshort,
    ?_, hopc, htop, ?_⟩
  · have hwarned : warn = true := by
      cases warn with
      | true => rfl
      | false => exact absurd (hw.symm.trans hbit) (by decide)
    obtain ⟨hop, rfl⟩ := hwarn hwarned
    exact ⟨hop, rspWord_code ..⟩
  · rw [hnwords, BitVec.toNat_ofNat, Nat.mod_eq_of_lt (by omega)]
  · rw [hlen, ← hcode, if_congr codeByte_ne_zero_iff rfl rfl]
    cases i <;> rfl

/-! ### What an error changes (R409) -/

/-- Settles O42: of the ends of a command the error that changes nothing and INVALID_LENGTH have a code that is not
0. -/
theorem errorsChangeNothing : Obligations.ErrorsChangeNothing := by
  intro i s herror
  have hnotOk {warn : Bool} {op : Byte} {p : List Word} {u : State}
      (h : exec i s = .next (respond .ok warn op p u)) (hport : u.respPort = s.respPort) : False :=
    herror (codeByte_eq_firstCode h hport).symm
  rcases exec_cases i s with ⟨code, -, hcode, h⟩ | ⟨c, x, -, -, h⟩ | ⟨-, h⟩ | ⟨alg, bo, c, req, x, -, -, h⟩
    | ⟨c, n, p, x, -, -, -, h⟩ | ⟨c, x, rfl, hx, -, ⟨-, -, h⟩ | ⟨-, -, h⟩ | ⟨-, h⟩⟩
  case inl =>
    have hfirst := codeByte_eq_firstCode h rfl
    refine ⟨_, (rspWord_code ..).trans hfirst, fun _ => h, fun hinvalid => ?_⟩
    exact absurd (codeByte_invalidLength_iff.1 (hfirst.trans hinvalid)) hcode
  case inr.inr.inr.inr.inr.inr.inl =>
    have hfirst := codeByte_eq_firstCode h rfl
    exact ⟨_, (rspWord_code ..).trans hfirst, fun hother => absurd hfirst.symm hother, fun _ => ⟨c, x, rfl, hx, h⟩⟩
  case inr.inr.inr.inl =>
    rw [bind_eq] at h
    exact (hnotOk h (sampleCaps_respPort s)).elim
  case inr.inr.inl => exact (hnotOk h (sampleCaps_respPort s)).elim
  all_goals exact (hnotOk h rfl).elim

/-- Settles O28: the check of the context number comes first; a number of 4 bits is below 16. -/
theorem contextOutOfRange : Obligations.ContextOutOfRange := by
  refine fun s c => ⟨fun hcount => hcount ▸ c.isLt, fun hc req n p => ?_⟩
  have hbad {i : Instr} {rsp : Word} (hnamed : commandCtx i = some c) (hrsp : rspWord .badContext false i.op 0 = rsp) :
      exec i s = .next { s with respPort := s.respPort ++ [rsp] } := by
    rw [← hrsp]
    exact exec_out_of_range hnamed hc
  have hinit : rspWord .badContext false opInit 0 = 0x00010011#32 := by decide
  have hupdate : rspWord .badContext false opUpdate 0 = 0x00020011#32 := by decide
  have hfinalize : rspWord .badContext false opFinalize 0 = 0x00030011#32 := by decide
  have hstatus : rspWord .badContext false opStatus 0 = 0x00040011#32 := by decide
  exact ⟨hbad rfl hinit, hbad rfl hinit, hbad rfl hinit, hbad rfl hupdate, hbad rfl hfinalize, hbad rfl hstatus⟩

/-- Settles O29: the lifecycle check comes next after the check of the context number. -/
theorem notLiveRefused : Obligations.NotLiveRefused := by
  refine fun s c x n p hx => ⟨fun hlife => ⟨?_, ?_⟩, fun hlife => ⟨?_, ?_⟩⟩
  · exact (onContext_some hx).trans (onLive_unbound hlife)
  · exact (onContext_some hx).trans (onLive_unbound hlife)
  · exact (onContext_some hx).trans (onLive_finalised hlife)
  · exact (onContext_some hx).trans (onLive_finalised hlife)

/-- Settles O34: the INVALID_LENGTH end of FINALIZE, with its answer written out. -/
theorem finalizeInvalidLength : Obligations.FinalizeInvalidLength := by
  intro s c x hx hlive halg hbuf
  have hexec := execFinalize_live hx hlive
  rw [halg] at hexec
  rw [← rspWord_invalidLength]
  exact hexec.trans (if_neg hbuf)

end Sys2Proof.Machine
end

section
/-! The family of spec/70_reset_and_hazards.md: the moves around the commands (R420, R450, R468), what no step changes
(R462), the capability input once it is sampled (R463), and whole runs of commands (R471). -/

namespace Sys2Proof.Machine

/-! ### Runs of commands (R94, R471) -/

/-- R471: between two commands, with no word at the command port and no host move listed, the CORE has nothing to do. -/
structure State.AtRest (s : State) : Prop where
  turns   : s.turns = []
  framing : s.framing = .idle
  cmdPort : s.cmdPort = []

theorem State.AtRest.ended {s : State} (h : s.AtRest) : s.ended = true := by
  simp [State.ended, h.turns, h.framing, h.cmdPort]

/-- At rest the framing is Idle and the port empty already. -/
theorem State.AtRest.reframe_eq {s : State} (h : s.AtRest) : s.reframe .idle [] = s := by
  rw [State.reframe, ← h.framing, ← h.cmdPort]

/-- A command, run from rest, ends at rest. -/
theorem exec_atRest {i : Instr} {s t : State} (h : exec i s = .next t) (hs : s.AtRest) : t.AtRest := by
  obtain ⟨-, -, -, hframing, hcmd, -, -, hturns⟩ := contextsIndependent i s t h
  exact ⟨hturns.trans hs.turns, hframing.trans hs.framing, hcmd.trans hs.cmdPort⟩

theorem execAll_atRest {is : List Instr} {s t : State} (h : execAll is s = some t) (hs : s.AtRest) : t.AtRest := by
  induction is generalizing s with
  | nil => exact Option.some.inj h ▸ hs
  | cons i is ih =>
    obtain ⟨u, hu⟩ := exec_next i s
    exact ih ((execAll_cons hu is).symm.trans h) (exec_atRest hu hs)

/-- R94, R121: a list of commands always ends, with one response of 1 to 9 words for each command, in order, at the end
of the response port. -/
theorem execAll_respPort (is : List Instr) (s : State) :
    ∃ (t : State) (rs : List (List Word)), execAll is s = some t
      ∧ rs.length = is.length ∧ (∀ r ∈ rs, 1 ≤ r.length ∧ r.length ≤ 9)
      ∧ t.respPort = s.respPort ++ rs.flatten ∧ t.hostGot = s.hostGot := by
  induction is generalizing s with
  | nil => exact ⟨s, [], rfl, rfl, List.forall_mem_nil _, (List.append_nil _).symm, rfl⟩
  | cons i is ih =>
    obtain ⟨u, r, hu, hport, -, hpos, hle⟩ := exec_respPort i s
    obtain ⟨-, -, -, -, -, -, hgot, -⟩ := contextsIndependent i s u hu
    obtain ⟨t, rs, hall, hlen, hrs, hports, hgots⟩ := ih u
    refine ⟨t, r :: rs, (execAll_cons hu is).trans hall, congrArg (· + 1) hlen,
      List.forall_mem_cons.2 ⟨⟨hpos, hle⟩, hrs⟩, ?_, hgots.trans hgot⟩
    rw [hports, hport, List.flatten_cons, List.append_assoc]

/-- R82: so the response port only gets longer. -/
theorem execAll_respPort_le {is : List Instr} {s t : State} (h : execAll is s = some t) :
    s.respPort.length ≤ t.respPort.length := by
  obtain ⟨t', rs, hall, -, -, hport, -⟩ := execAll_respPort is s
  obtain rfl := Option.some.inj (h.symm.trans hall)
  simp [hport]

/-- A run in two parts. -/
theorem run_add {k : Nat} {s t : State} (h : run k s = .next t) (n : Nat) : run (k + n) s = run n t := by
  induction k generalizing s with
  | zero =>
    obtain rfl : s = t := Host.Outcome.next.inj h
    rw [Nat.zero_add]
  | succ k ih =>
    obtain ⟨u, hu⟩ := step_next s
    rw [run_succ hu] at h
    rw [Nat.succ_add, run_succ hu]
    exact ih h

/-- R11, R91: from rest, the words of a command whose response fits run it and leave the words behind it waiting. -/
theorem run_encode {i : Instr} {s t : State} (hwf : i.wf = true) (hs : s.AtRest) (h : exec i s = .next t)
    (hfits : t.respPort.length ≤ s.cfg.respDepth) (rest : List Word) :
    run (encode i).length (s.reframe .idle (encode i ++ rest)) = .next (t.reframe .idle rest) := by
  have hexec : exec i (s.reframe .idle rest) = .next (t.reframe .idle rest) := by rw [exec_reframe, h]; rfl
  refine Eq.trans ?_ hexec
  refine (wordsOfCommandRunIt (s.reframe .idle (encode i ++ rest)) i rest hwf hs.turns rfl rfl fun u hu => ?_).2
  obtain rfl := Host.Outcome.next.inj (hexec.symm.trans hu)
  exact hfits

/-- R94, R471: from rest, the words of a list of commands whose responses fit run the commands one after the other. -/
theorem run_flatMap_encode {is : List Instr} {s t : State} (hwf : ∀ i ∈ is, i.wf = true) (hs : s.AtRest)
    (h : execAll is s = some t) (hfits : t.respPort.length ≤ s.cfg.respDepth) :
    run (is.flatMap encode).length (s.reframe .idle (is.flatMap encode)) = .next t := by
  induction is generalizing s with
  | nil =>
    obtain rfl := Option.some.inj h
    exact congrArg Host.Outcome.next hs.reframe_eq
  | cons i is ih =>
    obtain ⟨hwfi, hwfis⟩ := List.forall_mem_cons.1 hwf
    obtain ⟨u, hu⟩ := exec_next i s
    rw [execAll_cons hu] at h
    obtain ⟨-, -, hcfg, -⟩ := contextsIndependent i s u hu
    have hfirst := run_encode hwfi hs hu ((execAll_respPort_le h).trans hfits) (is.flatMap encode)
    rw [List.flatMap_cons, List.length_append, run_add hfirst]
    exact ih hwfis (exec_atRest hu hs) h (hcfg ▸ hfits)

/-- Settles O12: by induction over the commands, the words of each run it by `wordsOfCommandRunIt`. -/
theorem runOfCommands : Obligations.RunOfCommands := by
  intro s is hwf hturns hframing hport hfits
  obtain ⟨t, rs, hall, hlen, hrs, hresp, hgot⟩ := execAll_respPort is { s with cmdPort := [] }
  have hrest : ({ s with cmdPort := [] } : State).AtRest := ⟨hturns, hframing, rfl⟩
  have hstart : s = ({ s with cmdPort := [] } : State).reframe .idle (is.flatMap encode) := by
    rw [← hport, ← hframing]; rfl
  refine ⟨t, rs, hall, ?_, (execAll_atRest hall hrest).ended, hlen, hrs, ?_⟩
  · rw [hport, hstart]
    exact run_flatMap_encode hwf hrest hall (hfits t hall)
  · rw [State.responses, hgot, hresp, ← List.append_assoc]
    rfl

/-! ### The parameters (R462) -/

/-- R31, R462: reset fills the contexts again, and a command writes in the place of one. -/
theorem StepEffect.numContexts_eq {s t : State} (h : StepEffect s t) : t.numContexts = s.numContexts := by
  cases h with
  | reset => exact resetCore_numContexts _
  | around => rfl
  | stored => rfl
  | ran _ _ _ _ heffect =>
    obtain ⟨hcount, -⟩ := heffect.frame
    exact hcount

/-- Settles O20: none of the four steps writes a parameter. -/
theorem parametersNeverChange : Obligations.ParametersNeverChange := fun _ _ h =>
  ⟨(step_effect h).cfg_eq, (step_effect h).numContexts_eq⟩

/-! ### The capability input after the first sample (R463) -/

/-- R301: a sample after the first one is none. -/
theorem sampleCaps_of_valid {s : State} (h : s.capsValid = true) : sampleCaps s = s := if_pos h

section
variable {g : State → State} {s : State} {op : Byte}

/-- A change of the state that the context checks do not see and errors leave alone goes through `onContext` as it goes
through the body. -/
theorem onContext_onNext {c : BitVec 4} {body body' : Context → Result} (hctx : (g s).ctx? c = s.ctx? c)
    (hraise : ∀ code, raise code op (g s) = onNext g (raise code op s)) (h : ∀ x, body' x = onNext g (body x)) :
    onContext op c (g s) body' = onNext g (onContext op c s body) := by
  rw [onContext, onContext, hctx]
  cases s.ctx? c with
  | none => exact hraise _
  | some x => exact h x

/-- The same for `onLive`. -/
theorem onLive_onNext {x : Context} {body body' : Result}
    (hraise : ∀ code, raise code op (g s) = onNext g (raise code op s)) (h : body' = onNext g body) :
    onLive op x (g s) body' = onNext g (onLive op x s body) := by
  unfold onLive
  cases x.life with
  | unbound | finalised => exact hraise _
  | fresh | absorbing => exact h

end

section
variable (v : BitVec 7) (s : State) (op : Byte) (c : BitVec 4)

theorem raise_setCaps (code : Code) : raise code op (setCaps v s) = onNext (setCaps v) (raise code op s) := rfl

theorem execInit_setCaps (hvalid : s.capsValid = true) (alg : Alg) (bo : ByteOrder) (req : ImplReq) :
    execInit alg bo c req (setCaps v s) = onNext (setCaps v) (execInit alg bo c req s) := by
  have hvalid' : (setCaps v s).capsValid = true := hvalid
  refine onContext_onNext rfl (raise_setCaps v s _) fun _ => ?_
  rw [bind_eq, bind_eq, sampleCaps_of_valid hvalid, sampleCaps_of_valid hvalid']
  rfl

theorem execUpdate_setCaps (n : BitVec 20) (p : List Word) :
    execUpdate c n p (setCaps v s) = onNext (setCaps v) (execUpdate c n p s) :=
  onContext_onNext rfl (raise_setCaps v s _) fun _ => onLive_onNext (raise_setCaps v s _) rfl

theorem execFinalize_setCaps : execFinalize c (setCaps v s) = onNext (setCaps v) (execFinalize c s) :=
  onContext_onNext rfl (raise_setCaps v s _) fun x => onLive_onNext (raise_setCaps v s _) <| by
    cases x.alg with
    | fletcher4 => by_cases hb : x.buf.length % 4 = 0 <;> simp only [hb, if_true, if_false] <;> rfl
    | sha256 => rfl

theorem execStatus_setCaps : execStatus c (setCaps v s) = onNext (setCaps v) (execStatus c s) :=
  onContext_onNext rfl (raise_setCaps v s _) fun _ => rfl

theorem execCaps_setCaps (hvalid : s.capsValid = true) :
    execCaps (setCaps v s) = onNext (setCaps v) (execCaps s) := by
  have hvalid' : (setCaps v s).capsValid = true := hvalid
  rw [execCaps, execCaps, sampleCaps_of_valid hvalid, sampleCaps_of_valid hvalid']
  rfl

/-- R463: INIT and CAPS read the level of `caps_in` in a first sample alone, and no other command reads it. -/
theorem exec_setCaps (hvalid : s.capsValid = true) (i : Instr) :
    exec i (setCaps v s) = onNext (setCaps v) (exec i s) := by
  cases i with
  | initF4Le c req => exact execInit_setCaps v s c hvalid _ _ req
  | initF4Be c req => exact execInit_setCaps v s c hvalid _ _ req
  | initSha256 c req => exact execInit_setCaps v s c hvalid _ _ req
  | update c n p => exact execUpdate_setCaps v s c n p
  | finalize c => exact execFinalize_setCaps v s c
  | status c => exact execStatus_setCaps v s c
  | caps => exact execCaps_setCaps v s hvalid
  | illegal op => exact raise_setCaps v s op _

end

/-- Settles O26: a change of the level before a command is the same change after it. -/
theorem capsInIgnoredAfterSample : Obligations.CapsInIgnoredAfterSample := fun i s _ v hvalid h =>
  (exec_setCaps v s hvalid i).trans (congrArg (onNext (setCaps v)) h)

/-! ### The moves that run no command (R420, R450, R468) -/

/-- R420, R468: the CORE holds its state where the response port is full or there is no word. -/
theorem takeWord_holds {s : State} (h : s.cfg.respDepth ≤ s.respPort.length ∨ s.cmdPort = []) :
    takeWord s = (s, none) := by
  rcases takeWord_cases s with ⟨hholds, -⟩ | ⟨w, rest, hport, hroom, -⟩
  · exact hholds
  · rcases h with hfull | hempty
    · rw [hasRoom_full _ hfull] at hroom; cases hroom
    · rw [hport] at hempty; cases hempty

/-- Settles O11: each move is its turn's, and the CORE's is to hold. -/
theorem holdsWithoutRoomOrWord : Obligations.HoldsWithoutRoomOrWord := by
  refine fun s ts => ⟨fun hturns hholds => ?_, fun hturns => ?_, fun w hturns => ?_, fun v hturns => ?_⟩
  · exact step_of_nextCommand_none ((nextCommand_core hturns).trans (takeWord_holds hholds))
  · have hstep := step_of_nextCommand_none (nextCommand_read hturns)
    refine ⟨fun w port hport => ?_, fun hport => ?_⟩ <;> simpa [hostRead, hport] using hstep
  · exact step_of_nextCommand_none (nextCommand_write hturns)
  · exact step_of_nextCommand_none (nextCommand_setCaps hturns)

/-- Settles O19: what the reset move leaves, field by field. -/
theorem resetAnywhere : Obligations.ResetAnywhere := fun _ _ hturns =>
  ⟨_, step_of_nextCommand_none (nextCommand_reset hturns), rfl, rfl, rfl, rfl, rfl, resetCore_numContexts _, rfl,
    fun _ _ hx => resetCore_ctxs_mem _ (ctx?_mem hx)⟩

end Sys2Proof.Machine
end
